-- ==== Sys2Proof/Word.lean ====
section
/-!
DEFINITION. The numbers of the machine (00_scope R7, R8). A cell, an operand, an input and an output is an
`Int`, unbounded in both directions (P1); an address is a `Nat`, unbounded (P2). There are no bit
vectors: nothing wraps and nothing has a width (R8, R94). The pieces of a word are decimal digits.
-/

namespace Sys2Proof

/-- R8: the decimal digit of weight `10 ^ i`. -/
def digit (w i : Nat) : Nat := w / 10 ^ i % 10

end Sys2Proof
end

