-- ==== Sys2Proof/Config.lean ====
section
/-!
DEFINITION. The names the machine's rules use that are no state: addressing modes, fault causes and
their classes, and the one open parameter of the host wrapper.
The spec leaves no value of any instruction open, so there is no free value here.
-/

namespace Sys2Proof

/-- R54: the addressing mode of one parameter. -/
inductive Mode where
  | position
  | immediate
  | relative
deriving DecidableEq, Repr

/-- R131: the causes a step can record in the fault latch. The absence of a fault is `none` in the latch. -/
inductive Cause where
  /-- R58, R61: the word selects no operation. -/
  | unknownOpcode
  /-- R59: a mode digit above 2, or a digit above the last parameter's. -/
  | invalidModes
  /-- R60: a write parameter in Immediate mode. -/
  | writeImmediate
  /-- R100: INPUT with an empty queue and suspension disabled. -/
  | inputExhausted
  /-- R33, R79, R112: a negative address or a negative jump target. -/
  | negativeAddress
deriving DecidableEq, Repr

/-- R130: the two classes of the source, and the class the spec adds. -/
inductive FaultClass where
  | decodeError
  | inputExhausted
  | negativeAddress
deriving DecidableEq, Repr

/-- P9, R166: what becomes of input values that a Run call supplied and no INPUT consumed.
The spec leaves it open; it is an argument of Run (log entry 11). When `discard` drops them: log entry 15. -/
inductive LeftoverPolicy where
  | persist
  | discard
deriving DecidableEq, Repr

end Sys2Proof
end

