-- ==== Sys2Proof/Syntax.lean ====
section
/-!
DEFINITION. The instructions: one constructor per row of spec/opcode_table.json, in the table's order.
An instruction is what `Decode` returns for an instruction word (R57): the operation and one
addressing mode per parameter. The parameter cells are memory, read when the instruction runs (R62, R74).
-/

namespace Sys2Proof

/-- R55, R56: the ten operations; `m1`, `m2`, `m3` are the modes of parameters 1, 2, 3. -/
inductive Instr where
  /-- ADD (R90), format F3W. -/
  | add (m1 m2 m3 : Mode)
  /-- MULTIPLY (R91), format F3W. -/
  | multiply (m1 m2 m3 : Mode)
  /-- INPUT (R100), format F1W. -/
  | input (m1 : Mode)
  /-- OUTPUT (R101), format F1R. -/
  | output (m1 : Mode)
  /-- JUMP_IF_TRUE (R110), format F2R. -/
  | jumpIfTrue (m1 m2 : Mode)
  /-- JUMP_IF_FALSE (R111), format F2R. -/
  | jumpIfFalse (m1 m2 : Mode)
  /-- LESS_THAN (R92), format F3W. -/
  | lessThan (m1 m2 m3 : Mode)
  /-- EQUALS (R93), format F3W. -/
  | equals (m1 m2 m3 : Mode)
  /-- ADJUST_BASE (R120), format F1R. -/
  | adjustBase (m1 : Mode)
  /-- HALT (R121), format F0. -/
  | halt
deriving DecidableEq, Repr

end Sys2Proof
end

