-- ==== Sys2Proof/WellFormed.lean ====
section
/-!
DEFINITION. Which instructions an instruction word can stand for: a write parameter is never in
Immediate mode (R27, R56, R60). Read parameters take every mode.
-/

namespace Sys2Proof

/-- R56: the legal modes of a write parameter are Position and Relative. -/
abbrev Mode.IsWritable (m : Mode) : Prop := m ≠ .immediate

/-- R56, R60: the write parameter, where the operation has one, has a writable mode. -/
abbrev Instr.WellFormed (i : Instr) : Prop :=
  match i with
  | .add _ _ m3 => m3.IsWritable
  | .multiply _ _ m3 => m3.IsWritable
  | .input m1 => m1.IsWritable
  | .output _ => True
  | .jumpIfTrue _ _ => True
  | .jumpIfFalse _ _ => True
  | .lessThan _ _ m3 => m3.IsWritable
  | .equals _ _ m3 => m3.IsWritable
  | .adjustBase _ => True
  | .halt => True

end Sys2Proof
end

