-- ==== Sys2Proof/Decode.lean ====
section
/-!
DEFINITION. The decoder (R57), total on every integer and refusing by cause; then the encoder, the
opcode table's columns (R55) and the list of valid words (R64).
-/

namespace Sys2Proof

/-- R54: the mode a decimal digit stands for; 3 to 9 stand for none. -/
def modeOfDigit (d : Nat) : Option Mode :=
  match d with
  | 0 => some .position
  | 1 => some .immediate
  | 2 => some .relative
  | _ => none

/-- R53: the mode digit of parameter `k` (k = 1, 2, 3) in `q`, the word without its two opcode digits. -/
def modeDigit (q k : Nat) : Nat := digit q (k - 1)

/-- R53, R54: the mode of parameter `k`, where its digit is legal. -/
def modeAt (q k : Nat) : Option Mode := modeOfDigit (modeDigit q k)

/-- R53: the digits above those of `n` parameters. -/
def leftover (q n : Nat) : Nat := q / 10 ^ n

/-- Format F0 (R56): no parameter. -/
def decodeF0 (i : Instr) (q : Nat) : Except Cause Instr :=
  if leftover q 0 = 0 then .ok i else .error .invalidModes

/-- Format F1R (R56): one read parameter. -/
def decodeF1R (mk : Mode → Instr) (q : Nat) : Except Cause Instr :=
  if leftover q 1 = 0 then
    match modeAt q 1 with
    | some m1 => .ok (mk m1)
    | none => .error .invalidModes
  else .error .invalidModes

/-- Format F1W (R56): one write parameter; R60 comes after R59. -/
def decodeF1W (mk : Mode → Instr) (q : Nat) : Except Cause Instr :=
  if leftover q 1 = 0 then
    match modeAt q 1 with
    | some m1 => if m1 = .immediate then .error .writeImmediate else .ok (mk m1)
    | none => .error .invalidModes
  else .error .invalidModes

/-- Format F2R (R56): two read parameters. -/
def decodeF2R (mk : Mode → Mode → Instr) (q : Nat) : Except Cause Instr :=
  if leftover q 2 = 0 then
    match modeAt q 1, modeAt q 2 with
    | some m1, some m2 => .ok (mk m1 m2)
    | _, _ => .error .invalidModes
  else .error .invalidModes

/-- Format F3W (R56): two read parameters and a write parameter; R60 comes after R59. -/
def decodeF3W (mk : Mode → Mode → Mode → Instr) (q : Nat) : Except Cause Instr :=
  if leftover q 3 = 0 then
    match modeAt q 1, modeAt q 2, modeAt q 3 with
    | some m1, some m2, some m3 =>
      if m3 = .immediate then .error .writeImmediate else .ok (mk m1 m2 m3)
    | _, _, _ => .error .invalidModes
  else .error .invalidModes

/-- R55, R57, R58: the operation that opcode `o` selects, decoding the rest `q` of the word in its format. -/
def decodeOp (o q : Nat) : Except Cause Instr :=
  match o with
  | 1 => decodeF3W .add q
  | 2 => decodeF3W .multiply q
  | 3 => decodeF1W .input q
  | 4 => decodeF1R .output q
  | 5 => decodeF2R .jumpIfTrue q
  | 6 => decodeF2R .jumpIfFalse q
  | 7 => decodeF3W .lessThan q
  | 8 => decodeF3W .equals q
  | 9 => decodeF1R .adjustBase q
  | 99 => decodeF0 .halt q
  | _ => .error .unknownOpcode

/-- R57: `Decode`, a total function of the instruction word alone. Negative words are rejected before
any division (R61). -/
def decode (w : Int) : Except Cause Instr :=
  if w < 0 then .error .unknownOpcode else decodeOp (w.toNat % 100) (w.toNat / 100)

/-! ### The encoder -/

/-- R54: the digit of a mode. -/
def Mode.digit (m : Mode) : Nat :=
  match m with
  | .position => 0
  | .immediate => 1
  | .relative => 2

/-- R55: the opcode number. -/
def Instr.opcode (i : Instr) : Nat :=
  match i with
  | .add _ _ _ => 1
  | .multiply _ _ _ => 2
  | .input _ => 3
  | .output _ => 4
  | .jumpIfTrue _ _ => 5
  | .jumpIfFalse _ _ => 6
  | .lessThan _ _ _ => 7
  | .equals _ _ _ => 8
  | .adjustBase _ => 9
  | .halt => 99

/-- R57: the ordered list of addressing modes, one per declared parameter. -/
def Instr.modes (i : Instr) : List Mode :=
  match i with
  | .add m1 m2 m3 => [m1, m2, m3]
  | .multiply m1 m2 m3 => [m1, m2, m3]
  | .input m1 => [m1]
  | .output m1 => [m1]
  | .jumpIfTrue m1 m2 => [m1, m2]
  | .jumpIfFalse m1 m2 => [m1, m2]
  | .lessThan m1 m2 m3 => [m1, m2, m3]
  | .equals m1 m2 m3 => [m1, m2, m3]
  | .adjustBase m1 => [m1]
  | .halt => []

/-- R55: the parameter count `n`. -/
def Instr.params (i : Instr) : Nat := i.modes.length

/-- R55: how many of the last parameters are write-designated. -/
def Instr.writes (i : Instr) : Nat :=
  match i with
  | .add _ _ _ => 1
  | .multiply _ _ _ => 1
  | .input _ => 1
  | .output _ => 0
  | .jumpIfTrue _ _ => 0
  | .jumpIfFalse _ _ => 0
  | .lessThan _ _ _ => 1
  | .equals _ _ _ => 1
  | .adjustBase _ => 0
  | .halt => 0

/-- R50, R65: the number of cells the instruction occupies. -/
def Instr.length (i : Instr) : Nat := i.params + 1

/-- R51: the mode digits as one number, the first parameter's digit in the units place. -/
def modeNumber (ms : List Mode) : Nat :=
  match ms with
  | [] => 0
  | m :: rest => m.digit + 10 * modeNumber rest

/-- R51, R64: the instruction word, `opcode + 100*m1 + 1000*m2 + 10000*m3`. -/
def encode (i : Instr) : Int := ((i.opcode + 100 * modeNumber i.modes : Nat) : Int)

/-- R64: the 18 valid words of the format-F3W operation with opcode `o`. -/
def validF3W (o : Int) : List Int :=
  [0, 100, 200, 1000, 1100, 1200, 2000, 2100, 2200,
    20000, 20100, 20200, 21000, 21100, 21200, 22000, 22100, 22200].map (· + o)

/-- R64: the 9 valid words of the format-F2R operation with opcode `o`. -/
def validF2R (o : Int) : List Int :=
  [0, 100, 200, 1000, 1100, 1200, 2000, 2100, 2200].map (· + o)

/-- R64: every valid instruction word, in the rule's order. -/
def validWords : List Int :=
  validF3W 1 ++ validF3W 2 ++ [3, 203] ++ [4, 104, 204] ++ validF2R 5 ++ validF2R 6
    ++ validF3W 7 ++ validF3W 8 ++ [9, 109, 209] ++ [99]

/-! ### The host's view of the opcode table -/

/-- The integer whose `nbits` low bits are those of `w`, as an instruction word. A cell holds a whole
integer, so every bit of the number belongs to the first cell and the parameter cells are 0
(DESIGN CHOICE, log entry 5). -/
def wordOfTableBits (nbits w : Nat) : Int := ((w % 2 ^ nbits : Nat) : Int)

/-- The instruction the decoder reads from the table's word; none where it refuses. -/
def decodeTableWord (nbits w : Nat) : Option Instr :=
  match decode (wordOfTableBits nbits w) with
  | .ok i => some i
  | .error _ => none

end Sys2Proof
end

