-- ==== Sys2Proof/Machine/State.lean ====
section
/-!
DEFINITION. The complete state of one machine instance, as plain data (R10), the state after reset, and
the reasons a step can stop.
-/

namespace Sys2Proof.Machine

/-- R15, R16: the run status, an enumerated type of exactly three constructors. -/
inductive Status where
  | running
  | waitingForInput
  | halted
deriving DecidableEq, Repr

/-- R30: memory, as the list of the cells that do not hold 0, by rising address (see `Memory.wf`).
A cell holds a whole integer, not a byte (R35; DESIGN CHOICE of the form, log entry 1). -/
abbrev Memory := List (Nat × Int)

/-- The canonical form: addresses strictly rising, and no listed cell holds 0, which is what an unlisted
cell reads as (R31). Equal memories are then equal lists (R24). -/
abbrev Memory.wf (m : Memory) : Prop :=
  m.Pairwise (fun c d => c.1 < d.1) ∧ ∀ c ∈ m, c.2 ≠ 0

/-- R10: the nine items of state; nothing else is state. -/
structure State where
  /-- R20, R30: the one address space. -/
  mem : Memory
  /-- R12: the instruction pointer. -/
  ip : Nat
  /-- R14: the relative base. -/
  rb : Int
  /-- R15: the run status. -/
  status : Status
  /-- R17: suspend on missing input, fixed at Construct. -/
  suspendEn : Bool
  /-- R18: the fault latch. -/
  fault : Option Cause
  /-- R21: the input queue, head first. -/
  inq : List Int
  /-- R22: every output of the instance, oldest first. -/
  out : List Int
  /-- R22: the length of `out` when the current or last run call began. -/
  outMark : Nat
deriving DecidableEq, Repr

/-- R25, R160: the machine right after reset, with no program loaded. The spec gives `suspend_en` no reset
value of its own (R17); `true` is the model's (DESIGN CHOICE, log entry 4). -/
def State.reset : State :=
  { mem := []
    ip := 0
    rb := 0
    status := .running
    suspendEn := true
    fault := none
    inq := []
    out := []
    outMark := 0 }

/-- Why no step exists (R71). The five causes of R131 are not here: a step that raises one completes by
setting the fault latch (R136). -/
inductive Fault where
  /-- Raised by `step` when the status is Halted: "Halted is terminal" (R15, R71). Safe: the machine stops
  where the spec says that no step exists. -/
  | stepAfterHalt
  /-- Raised by `step` when the fault latch holds a cause: "the machine does not recover" (R71, R137).
  Safe: the machine stops where the spec says that no step exists. -/
  | stepAfterFault
deriving DecidableEq, Repr

/-- Instructions without a meaning. -/
inductive Refusal where
  /-- Raised by an arm of `exec` for an instruction the model gives no meaning. No arm does. Safe. -/
  | notModelled (mnemonic : String)
deriving DecidableEq, Repr

end Sys2Proof.Machine
end

