-- ==== Sys2Proof/Machine/Ops.lean ====
section
/-!
DEFINITION. The named operations over memory, registers, queues and the fault latch, from which every
meaning is built.
-/

namespace Sys2Proof.Machine

/-! ### Memory -/

/-- R31: `MemRead`. A cell that is not listed reads 0. -/
def Memory.read (m : Memory) (a : Nat) : Int :=
  match m with
  | [] => 0
  | (b, v) :: rest => if b = a then v else Memory.read rest a

/-- R32: `MemWrite`. The cells below `a`, the cell, the cells above; a cell that holds 0 is not listed. -/
def Memory.write (m : Memory) (a : Nat) (v : Int) : Memory :=
  m.filter (fun c => c.1 < a) ++ (if v = 0 then [] else [(a, v)]) ++ m.filter (fun c => a < c.1)

/-- R34: the cells `a`, `a + 1`, … hold the integers of the sequence, every other cell 0. -/
def Memory.ofCells (a : Nat) (vs : List Int) : Memory :=
  match vs with
  | [] => []
  | v :: rest => if v = 0 then Memory.ofCells (a + 1) rest else (a, v) :: Memory.ofCells (a + 1) rest

/-- R33, R79: an integer as an address. The one place where a negative address is refused. -/
def toAddr (x : Int) : Except Cause Nat :=
  if x < 0 then .error .negativeAddress else .ok x.toNat

/-- R72: the instruction word at `ip`. -/
def State.fetchWord (s : State) : Int := s.mem.read s.ip

/-- R74: the raw value of parameter `k`, the cell at `ip + k`. -/
def State.param (s : State) (k : Nat) : Int := s.mem.read (s.ip + k)

/-- R32: store one cell. -/
def State.store (s : State) (a : Nat) (v : Int) : State := { s with mem := s.mem.write a v }

/-! ### Registers, queues, status -/

/-- R82: the default advance past an instruction with `n` parameters. -/
def State.advance (s : State) (n : Nat) : State := { s with ip := s.ip + n + 1 }

/-- R112: the absolute control transfer. -/
def State.jumpTo (s : State) (a : Nat) : State := { s with ip := a }

/-- R120: the only operation that changes the relative base. -/
def State.addBase (s : State) (v : Int) : State := { s with rb := s.rb + v }

/-- R101: append to the output sequence. -/
def State.emit (s : State) (v : Int) : State := { s with out := s.out ++ [v] }

/-- R100: drop the head of the input queue. -/
def State.dropInput (s : State) : State := { s with inq := s.inq.tail }

/-- R15: set the run status. -/
def State.setStatus (s : State) (x : Status) : State := { s with status := x }

/-! ### Faults -/

/-- R136: fault entry. The cause goes into the latch and no other state changes: no handler, no vector,
no saved state. There is no return from a fault (R137): nothing but a new Construct clears the latch. -/
def State.takeFault (s : State) (F : Cause) : State := { s with fault := some F }

/-- R136: what a step answers: the effect where no phase raised a cause, fault entry where one did. -/
def settle (s : State) (r : Except Cause State) : Host.Outcome State Fault Refusal :=
  match r with
  | .ok t => .next t
  | .error F => .next (s.takeFault F)

/-- R131: the code of the latch's contents, which carries no other meaning. -/
def faultCode (f : Option Cause) : Nat :=
  match f with
  | none => 0
  | some .unknownOpcode => 1
  | some .invalidModes => 2
  | some .writeImmediate => 3
  | some .inputExhausted => 4
  | some .negativeAddress => 5

/-- R130: the class of a cause. -/
def faultClass (F : Cause) : FaultClass :=
  match F with
  | .unknownOpcode => .decodeError
  | .invalidModes => .decodeError
  | .writeImmediate => .decodeError
  | .inputExhausted => .inputExhausted
  | .negativeAddress => .negativeAddress

/-- R131: the source's message; it has none for the cause the spec adds. -/
def faultMessage (F : Cause) : Option String :=
  match F with
  | .unknownOpcode => some "unknown opcode"
  | .invalidModes => some "invalid parameter modes"
  | .writeImmediate => some "write parameter cannot be immediate"
  | .inputExhausted => some "missing input"
  | .negativeAddress => none

/-! ### Reset and the next instruction -/

/-- R25, R160: Construct, the only reset: the program at addresses 0 … N-1, everything else as R25 says. -/
def State.construct (program : List Int) (suspendEn : Bool) : State :=
  { State.reset with mem := Memory.ofCells 0 program, suspendEn := suspendEn }

/-- The instruction word `w` at `ip`, with 0 in the three cells after it, which the longest instruction's
parameters occupy (R50). -/
def State.placeWord (s : State) (w : Int) : State :=
  (((s.store s.ip w).store (s.ip + 1) 0).store (s.ip + 2) 0).store (s.ip + 3) 0

end Sys2Proof.Machine
end

