-- ==== Sys2Proof/Machine/Flags.lean ====
section
/-!
DEFINITION. What stands in the place of flags. The machine has none (R19): a comparison stores 1 or 0 in
a memory cell, and a conditional jump tests an ordinary operand for zero.
-/

namespace Sys2Proof.Machine

/-- R92, R93: the integer a comparison stores, 1 where the relation holds and 0 where it does not. -/
def truthWord (holds : Bool) : Int := if holds then 1 else 0

/-- R92: first operand less than second, in the order of the integers. -/
def lessThanWord (v1 v2 : Int) : Int := truthWord (decide (v1 < v2))

/-- R93: equality of the integers. -/
def equalsWord (v1 v2 : Int) : Int := truthWord (decide (v1 = v2))

/-- R110: every non-zero integer, negative ones included, counts as true. -/
def countsAsTrue (v : Int) : Bool := decide (v ≠ 0)

end Sys2Proof.Machine
end

