-- ==== Sys2Proof/Machine/Operands.lean ====
section
/-!
DEFINITION. The address resolver (R75 to R79) and the operands of each instruction format (R56, R78).
All parameters are resolved before any operand is used, and all of it before any effect (R80).
-/

namespace Sys2Proof.Machine

/-- `Resolve`: the address of parameter `k` in mode `m`: Position (R75), Immediate (R76), Relative (R77);
a negative address raises NegativeAddress (R79). -/
def resolve (s : State) (k : Nat) (m : Mode) : Except Cause Nat :=
  match m with
  | .position => toAddr (s.param k)
  | .immediate => .ok (s.ip + k)
  | .relative => toAddr (s.rb + s.param k)

/-- The address of write parameter `k`. Decode has refused Immediate mode (R60, R76); an ill-formed
instruction that has it all the same raises the same cause here (DESIGN CHOICE, log entry 6). -/
def resolveWrite (s : State) (k : Nat) (m : Mode) : Except Cause Nat :=
  if m = .immediate then .error .writeImmediate else resolve s k m

/-- Format F3W: the operands of read parameters 1 and 2 and the address of write parameter 3. -/
def operandsF3W (s : State) (m1 m2 m3 : Mode) : Except Cause (Int × Int × Nat) :=
  match resolve s 1 m1, resolve s 2 m2, resolveWrite s 3 m3 with
  | .ok a1, .ok a2, .ok a3 => .ok (s.mem.read a1, s.mem.read a2, a3)
  | .error F, _, _ => .error F
  | .ok _, .error F, _ => .error F
  | .ok _, .ok _, .error F => .error F

/-- Format F2R: the operands of read parameters 1 and 2. -/
def operandsF2R (s : State) (m1 m2 : Mode) : Except Cause (Int × Int) :=
  match resolve s 1 m1, resolve s 2 m2 with
  | .ok a1, .ok a2 => .ok (s.mem.read a1, s.mem.read a2)
  | .error F, _ => .error F
  | .ok _, .error F => .error F

/-- Format F1R: the operand of read parameter 1. -/
def operandF1R (s : State) (m1 : Mode) : Except Cause Int :=
  match resolve s 1 m1 with
  | .ok a1 => .ok (s.mem.read a1)
  | .error F => .error F

/-- Format F1W: the address of write parameter 1. -/
def operandF1W (s : State) (m1 : Mode) : Except Cause Nat := resolveWrite s 1 m1

end Sys2Proof.Machine
end

