-- ==== Sys2Proof/Machine/Alu.lean ====
section
/-!
DEFINITION. ADD, MULTIPLY, LESS_THAN, EQUALS (41_alu.md).
-/

namespace Sys2Proof.Machine

/-- The template of 41_alu.md: store `f v1 v2` at the write address and advance past three parameters.
Int, parameters and operands were all read before the write (R40, R95). -/
def aluOp (f : Int → Int → Int) (m1 m2 m3 : Mode) (s : State) :
    Host.Outcome State Fault Refusal :=
  settle s (match operandsF3W s m1 m2 m3 with
    | .ok (v1, v2, a3) => .ok ((s.store a3 (f v1 v2)).advance 3)
    | .error F => .error F)

/-- R90: ADD stores the exact integer sum. -/
def execAdd (m1 m2 m3 : Mode) (s : State) : Host.Outcome State Fault Refusal :=
  aluOp (fun v1 v2 => v1 + v2) m1 m2 m3 s

/-- R91: MULTIPLY stores the exact integer product. -/
def execMultiply (m1 m2 m3 : Mode) (s : State) : Host.Outcome State Fault Refusal :=
  aluOp (fun v1 v2 => v1 * v2) m1 m2 m3 s

/-- R92: LESS_THAN stores 1 where the first operand is less than the second, else 0. -/
def execLessThan (m1 m2 m3 : Mode) (s : State) : Host.Outcome State Fault Refusal :=
  aluOp lessThanWord m1 m2 m3 s

/-- R93: EQUALS stores 1 where the operands are equal, else 0. -/
def execEquals (m1 m2 m3 : Mode) (s : State) : Host.Outcome State Fault Refusal :=
  aluOp equalsWord m1 m2 m3 s

end Sys2Proof.Machine
end

