-- ==== Sys2Proof/Machine/BaseHalt.lean ====
section
/-!
DEFINITION. ADJUST_BASE and HALT (44_base_halt.md).
-/

namespace Sys2Proof.Machine

/-- R120: ADJUST_BASE adds its operand, read with the old base, to the relative base. -/
def execAdjustBase (m1 : Mode) (s : State) : Host.Outcome State Fault Refusal :=
  settle s (match operandF1R s m1 with
    | .ok v1 => .ok ((s.addBase v1).advance 1)
    | .error F => .error F)

/-- R121: HALT changes the status only; `ip` stays at the HALT word. -/
def execHalt (s : State) : Host.Outcome State Fault Refusal :=
  .next (s.setStatus .halted)

end Sys2Proof.Machine
end

