-- ==== Sys2Proof/Machine/Io.lean ====
section
/-!
DEFINITION. INPUT and OUTPUT (42_io.md).
-/

namespace Sys2Proof.Machine

/-- R100, at a destination already resolved: an empty queue suspends or raises InputExhausted, with `ip`
unchanged; otherwise the head of the queue goes to the destination. -/
def inputAt (a1 : Nat) (s : State) : Except Cause State :=
  match s.inq with
  | [] => if s.suspendEn then .ok (s.setStatus .waitingForInput) else .error .inputExhausted
  | v :: _ => .ok (((s.dropInput.store a1 v).setStatus .running).advance 1)

/-- R100: INPUT. The destination is resolved before the queue is examined (R80). -/
def execInput (m1 : Mode) (s : State) : Host.Outcome State Fault Refusal :=
  settle s (match operandF1W s m1 with
    | .ok a1 => inputAt a1 s
    | .error F => .error F)

/-- R101: OUTPUT appends its operand to the output sequence. -/
def execOutput (m1 : Mode) (s : State) : Host.Outcome State Fault Refusal :=
  settle s (match operandF1R s m1 with
    | .ok v1 => .ok ((s.emit v1).advance 1)
    | .error F => .error F)

end Sys2Proof.Machine
end

