-- ==== Sys2Proof/Machine/Jump.lean ====
section
/-!
DEFINITION. JUMP_IF_TRUE and JUMP_IF_FALSE (43_jump.md).
-/

namespace Sys2Proof.Machine

/-- R112: a taken jump goes to the absolute address `v2`, or raises NegativeAddress where `v2` is negative;
a jump not taken ignores `v2` and advances past two parameters. -/
def jumpWhen (taken : Bool) (v2 : Int) (s : State) : Except Cause State :=
  if taken then
    match toAddr v2 with
    | .ok a => .ok (s.jumpTo a)
    | .error F => .error F
  else .ok (s.advance 2)

/-- R110: JUMP_IF_TRUE. Both operands are read whether or not the jump is taken (R80). -/
def execJumpIfTrue (m1 m2 : Mode) (s : State) : Host.Outcome State Fault Refusal :=
  settle s (match operandsF2R s m1 m2 with
    | .ok (v1, v2) => jumpWhen (countsAsTrue v1) v2 s
    | .error F => .error F)

/-- R111: JUMP_IF_FALSE. -/
def execJumpIfFalse (m1 m2 : Mode) (s : State) : Host.Outcome State Fault Refusal :=
  settle s (match operandsF2R s m1 m2 with
    | .ok (v1, v2) => jumpWhen (!countsAsTrue v1) v2 s
    | .error F => .error F)

end Sys2Proof.Machine
end

