-- ==== Sys2Proof/Machine/Cycle.lean ====
section
/-!
DEFINITION. One fetch-decode-execute cycle (R70) and when one exists (R71).
-/

namespace Sys2Proof.Machine

/-- R71, R72, R73: no step after a fault or a halt; otherwise the word at `ip` is decoded afresh and run,
and a decode failure is taken as a fault before any parameter cell is read. In WaitingForInput the step
re-executes the INPUT. -/
def cycle (s : State) : Host.Outcome State Fault Refusal :=
  if s.fault ≠ none then .fault .stepAfterFault
  else if s.status = .halted then .fault .stepAfterHalt
  else
    match decode s.fetchWord with
    | .ok i => exec i s
    | .error F => .next (s.takeFault F)

end Sys2Proof.Machine
end

