-- ==== Sys2Proof/Machine/Step.lean ====
section
/-!
DEFINITION. The step, and the host's way to place one instruction for it.
-/

namespace Sys2Proof.Machine

/-- R70: one step executes one instruction. -/
def step (s : State) : Host.Outcome State Fault Refusal := cycle s

/-- `s` with the table's word `w` of `nbits` bits in the cell the next step fetches, and 0 in the parameter
cells (log entry 5). -/
def State.withFetchWord (s : State) (nbits w : Nat) : State := s.placeWord (wordOfTableBits nbits w)

end Sys2Proof.Machine
end

