-- ==== Sys2Proof/Machine/Contract.lean ====
section
/-!
DEFINITION. The host contract over one instance: the outcome of a step (R83), Run (R162 to R167) and
IsHalted (R163). Construct is `State.construct`; observation is reading a field of the state (R26).
-/

namespace Sys2Proof.Machine

/-- R83: the four ways a step ends. -/
inductive StepOutcome where
  | continues
  | suspended
  | halted
  | fault (F : Cause)
deriving DecidableEq, Repr

/-- R83: the outcome of a step, read from the state after it (log entry 9). -/
def outcomeOf (t : State) : StepOutcome :=
  match t.fault, t.status with
  | some F, _ => .fault F
  | none, .running => .continues
  | none, .waitingForInput => .suspended
  | none, .halted => .halted

/-- R162: what a Run call hands back. -/
inductive RunResult where
  | ok (outputs : List Int)
  | failure (F : Cause)
deriving DecidableEq, Repr

/-- R166: `Admit`, under either value of the open parameter P9. DESIGN CHOICE, log entry 15: `discard` drops
what was left when the next call that executes is admitted, as R162's `Admit` does, and not when a call
ends, so what a halt or a fault leaves in `inq` reads the same under both. -/
def admitInputs (policy : LeftoverPolicy) (q inputs : List Int) : List Int :=
  match policy with
  | .persist => q ++ inputs
  | .discard => inputs

/-- R162: the start of a call that executes: the inputs admitted, the position in `out` marked. -/
def State.beginCall (s : State) (policy : LeftoverPolicy) (inputs : List Int) : State :=
  { s with inq := admitInputs policy s.inq inputs, outMark := s.out.length }

/-- R22: the outputs of the current call, `out` from `out_mark`. -/
def State.callOutputs (s : State) : List Int := s.out.drop s.outMark

/-- R162: the loop of Run, at most `fuel` steps of it. `none`: the fuel ran out first, which says nothing
about the machine (R113, R171; log entry 10). -/
def runLoop (fuel : Nat) (s : State) : Option (RunResult × State) :=
  match fuel with
  | 0 => none
  | n + 1 =>
    match step s with
    | .next t =>
      match outcomeOf t with
      | .continues => runLoop n t
      | .suspended => some (.ok t.callOutputs, t)
      | .halted => some (.ok t.callOutputs, t)
      | .fault F => some (.failure F, t)
    | .fault _ => none
    | .refused _ => none

/-- R162: Run. On a faulted machine the same failure again (R165), on a halted one no outputs (R164); in
both the inputs are dropped and nothing changes, so a `policy` never touches the `inq` that a halt or a
fault left (DESIGN CHOICE, log entry 15). -/
def run (policy : LeftoverPolicy) (fuel : Nat) (s : State) (inputs : List Int) :
    Option (RunResult × State) :=
  match s.fault with
  | some F => some (.failure F, s)
  | none =>
    if s.status = .halted then some (.ok [], s) else runLoop fuel (s.beginCall policy inputs)

/-- R163: IsHalted, a query without a side effect. -/
def isHalted (s : State) : Bool := decide (s.status = .halted)

end Sys2Proof.Machine
end

