-- ==== Sys2Proof/Machine/Network.lean ====
section
/-!
DEFINITION. Several instances (R141) and the amplifier feedback network, the host-level protocol of
60_exceptions.md (R142 to R148).
-/

namespace Sys2Proof.Machine

/-- R141: one Run call on instance `k` of several; the others keep their state. `none`: there is no
instance `k`, or the call did not return within the fuel. -/
def runInstance (policy : LeftoverPolicy) (fuel : Nat) (ms : List State) (k : Nat)
    (inputs : List Int) : Option (RunResult × List State) :=
  match ms[k]? with
  | none => none
  | some m =>
    match run policy fuel m inputs with
    | none => none
    | some (r, m') => some (r, ms.set k m')

/-- Why the host protocol refuses a trial. -/
inductive TrialRefusal where
  /-- R148: a machine returned no output or several. -/
  | notOneOutput
  /-- R148: a machine faulted. -/
  | machineFaulted (F : Cause)
  /-- R146 tests machine 0, and a network of no machines has none (DESIGN CHOICE, log entry 12). -/
  | noMachine
deriving DecidableEq, Repr

/-- The end of a round. -/
inductive RoundResult where
  | done (ms : List State) (carried : Int)
  | refused (r : TrialRefusal)
  | outOfFuel
deriving DecidableEq, Repr

/-- R145: one round, machine by machine. Each entry is a machine's number and the values fed before the
carried one: its phase in the first round, none later. -/
def passRound (policy : LeftoverPolicy) (fuel : Nat) (plan : List (Nat × List Int))
    (ms : List State) (carried : Int) : RoundResult :=
  match plan with
  | [] => .done ms carried
  | (k, before) :: rest =>
    match runInstance policy fuel ms k (before ++ [carried]) with
    | none => .outOfFuel
    | some (.failure F, _) => .refused (.machineFaulted F)
    | some (.ok outputs, ms') =>
      match outputs with
      | [o] => passRound policy fuel rest ms' o
      | _ => .refused .notOneOutput

/-- R145: the plan of the first round, with the phases. -/
def firstPlan (phases : List Int) : List (Nat × List Int) :=
  phases.zipIdx.map (fun p => (p.2, [p.1]))

/-- R145: the plan of a later round of `n` machines. -/
def laterPlan (n : Nat) : List (Nat × List Int) := (List.range n).map (fun k => (k, []))

/-- The end of a trial. -/
inductive TrialResult where
  | value (w : Int)
  | refused (r : TrialRefusal)
  | outOfFuel
deriving DecidableEq, Repr

/-- R145, R146: after each round, the result if machine 0 reports Halted, else another round. -/
def afterRound (policy : LeftoverPolicy) (fuel rounds : Nat) (r : RoundResult) : TrialResult :=
  match r with
  | .refused x => .refused x
  | .outOfFuel => .outOfFuel
  | .done ms carried =>
    match ms with
    | [] => .refused .noMachine
    | m0 :: _ =>
      if isHalted m0 then .value carried
      else
        match rounds with
        | 0 => .outOfFuel
        | n + 1 =>
          afterRound policy fuel n (passRound policy fuel (laterPlan ms.length) ms carried)

/-- R143, R145, R148: one trial. Fresh instances of one program with suspension enabled, one per phase; the
carried value starts at 0. At most `rounds` rounds follow the first. Phases that repeat are run like any
others (DESIGN CHOICE, log entry 16). -/
def trial (policy : LeftoverPolicy) (fuel rounds : Nat) (program phases : List Int) : TrialResult :=
  afterRound policy fuel rounds
    (passRound policy fuel (firstPlan phases)
      (phases.map (fun _ => State.construct program true)) 0)

/-- `x` put at every place of a list. -/
def insertions (x : Int) (l : List Int) : List (List Int) :=
  match l with
  | [] => [[x]]
  | y :: rest => (x :: y :: rest) :: (insertions x rest).map (fun r => y :: r)

/-- R144, R147: every permutation of the phase set. DESIGN CHOICE, log entry 16: R144 says that a phase is
unique and not what a repeat does; a list with a repeat is taken as it stands, its equal orders listed
more than once. -/
def phaseAssignments (phases : List Int) : List (List Int) :=
  match phases with
  | [] => [[]]
  | x :: rest => (phaseAssignments rest).flatMap (insertions x)

/-- The values of trials, where every one of them ended with a value. -/
def trialValues (ts : List TrialResult) : Option (List Int) :=
  match ts with
  | [] => some []
  | .value w :: rest => (trialValues rest).map (fun vs => w :: vs)
  | .refused _ :: _ => none
  | .outOfFuel :: _ => none

/-- R147: the maximum final output over all permutations of the phase set; none where some trial has no
value (DESIGN CHOICE, log entry 12). -/
def maxSignal (policy : LeftoverPolicy) (fuel rounds : Nat) (program phases : List Int) :
    Option Int :=
  match trialValues ((phaseAssignments phases).map (trial policy fuel rounds program)) with
  | none => none
  | some vs => vs.max?

end Sys2Proof.Machine
end

