-- ==== Sys2Proof/Safety.lean ====
section
/-!
DEFINITION. What counts as a consistent, an enabled, a finished and a failed machine, in the terms the
statements use.
-/

namespace Sys2Proof.Machine

/-- R71: a step may be taken. -/
abbrev Enabled (s : State) : Prop := s.fault = none ∧ s.status ≠ .halted

/-- R172: the run of the program is finished. -/
abbrev Finished (s : State) : Prop := s.status = .halted ∧ s.fault = none

/-- R172: a failure, terminal but not final. -/
abbrev Failed (s : State) : Prop := s.fault ≠ none

/-- R27: `mem[ip]` decodes to an INPUT, and its destination is an address. -/
def AtInput (s : State) : Prop :=
  ∃ m a, decode s.fetchWord = .ok (.input m) ∧ operandF1W s m = .ok a

/-- The invariants of R27 (and R18, R22) that are not already in the types. Every step keeps them. -/
structure Consistent (s : State) : Prop where
  /-- R24, R30: memory is in its canonical form. -/
  mem_wf : s.mem.wf
  /-- R22: the mark lies within the output sequence. -/
  mark_le : s.outMark ≤ s.out.length
  /-- R18: a faulted machine's status is Running. -/
  fault_running : s.fault ≠ none → s.status = .running
  /-- R27: a halted machine stands at a HALT word. -/
  halted_at_halt : s.status = .halted → decode s.fetchWord = .ok .halt
  /-- R27: a waiting machine has suspension enabled and stands at an INPUT. -/
  waiting_at_input : s.status = .waitingForInput → s.suspendEn = true ∧ AtInput s

/-- R166: between run calls, a machine that a call would run has an empty input queue. -/
structure Idle (s : State) : Prop where
  consistent : Consistent s
  queue_empty : Enabled s → s.inq = []

/-- R173, D23: where the host stands with an instance. -/
inductive HostPhase where
  /-- No Run call of the instance is executing. -/
  | betweenCalls
  /-- A Run call is executing, and the host waits for it to return. -/
  | inCall
deriving DecidableEq, Repr

/-- R173: every move there is on a constructed instance, with where the host stands before and after it.
IsHalted and observation change nothing and are no moves (R163, R26). No move but a step starts in a
call, and none constructs again. -/
inductive Transition : HostPhase → State → HostPhase → State → Prop where
  /-- R162: a Run call that executes begins. -/
  | beginCall (s : State) (policy : LeftoverPolicy) (inputs : List Int) :
      Enabled s → Transition .betweenCalls s .inCall (s.beginCall policy inputs)
  /-- R164, R165: a Run call on a halted or a faulted instance. -/
  | noOpCall (s : State) : ¬ Enabled s → Transition .betweenCalls s .betweenCalls s
  /-- R162: a step of a call, after which the loop goes on. -/
  | callContinues (s t : State) :
      step s = .next t → outcomeOf t = .continues → Transition .inCall s .inCall t
  /-- R162: a step of a call, after which the call returns: suspended, halted or failed. -/
  | callReturns (s t : State) :
      step s = .next t → outcomeOf t ≠ .continues → Transition .inCall s .betweenCalls t
  /-- R26, D24: the host takes one step itself, for testing. -/
  | singleStep (s t : State) : step s = .next t → Transition .betweenCalls s .betweenCalls t

/-- R173: the states that Construct and these moves lead to, with where the host stands. -/
inductive Reachable : HostPhase → State → Prop where
  | construct (program : List Int) (flag : Bool) :
      Reachable .betweenCalls (State.construct program flag)
  | move (p q : HostPhase) (s t : State) : Reachable p s → Transition p s q t → Reachable q t

end Sys2Proof.Machine
end

