-- ==== Sys2Proof/Certificates/Slice0/Obligations.lean ====
section
/-!
DEFINITION. The statements for the provers, in the order of OBLIGATIONS.json.
Each docstring says which rule or section of spec/ it formalises. A decision D<n> is the spec's own choice
(spec/92_eei_decisions.md).
-/

open Sys2Proof Sys2Proof.Machine

/-! ### Encoding and decoding -/

/-- 30_encoding.md section 4, the worked decode examples. Opcode numbers: D1; Relative digit: D2. -/
def Obligations.DecodesTheWorkedExamples : Prop :=
  decode 1002 = .ok (.multiply .position .immediate .position) ∧
  decode 10002 = .error .writeImmediate ∧
  decode 204 = .ok (.output .relative) ∧
  decode 99 = .ok .halt ∧
  decode 1006 = .ok (.jumpIfFalse .position .immediate) ∧
  decode 109 = .ok (.adjustBase .immediate) ∧
  decode 21001 = .ok (.add .position .immediate .relative) ∧
  decode 203 = .ok (.input .relative) ∧
  decode 2205 = .ok (.jumpIfTrue .relative .relative) ∧
  decode 1107 = .ok (.lessThan .immediate .immediate .position) ∧
  decode 8 = .ok (.equals .position .position .position)

/-- Decode and encode agree on every well-formed instruction (30_encoding.md sections 1 to 3). -/
def Obligations.DecodeOfEncodeIsTheInstruction : Prop :=
  ∀ i : Instr, i.WellFormed → decode (encode i) = .ok i

/-- Only the encoding of a well-formed instruction decodes to it, over all integers
(30_encoding.md sections 1 to 3). -/
def Obligations.DecodeAcceptsOnlyEncodings : Prop :=
  ∀ (w : Int) (i : Instr), decode w = .ok i → i.WellFormed ∧ encode i = w

/-- "Exactly 99 integers decode without a fault" (30_encoding.md section 3; the spec marks the list as
derived). -/
def Obligations.ValidWordsAreTheListed99 : Prop :=
  validWords.length = 99 ∧ validWords.Nodup ∧
  ∀ w : Int, (∃ i, decode w = .ok i) ↔ w ∈ validWords

/-- R58: UnknownOpcode, for which words. Negative words: D6. -/
def Obligations.UnknownOpcodeExactly : Prop :=
  ∀ w : Int, decode w = .error .unknownOpcode ↔
    w < 0 ∨ (0 ≤ w ∧ w % 100 ∉ ([1, 2, 3, 4, 5, 6, 7, 8, 9, 99] : List Int))

/-- R59: InvalidModes, for which words whose opcode is in the table; `n` is the parameter count. -/
def Obligations.InvalidModesExactly : Prop :=
  ∀ w n : Nat,
    (w % 100, n) ∈ ([(1, 3), (2, 3), (3, 1), (4, 1), (5, 2), (6, 2), (7, 3), (8, 3), (9, 1),
      (99, 0)] : List (Nat × Nat)) →
    (decode (w : Int) = .error .invalidModes ↔
      w / (100 * 10 ^ n) ≠ 0 ∨ ∃ k, 1 ≤ k ∧ k ≤ n ∧ 3 ≤ digit w (k + 1))

/-- R60: WriteImmediate, for which words, over all integers. -/
def Obligations.WriteImmediateExactly : Prop :=
  ∀ w : Int, decode w = .error .writeImmediate ↔
    ∃ u : Nat, w = u ∧
      ((u % 100 ∈ ([1, 2, 7, 8] : List Nat) ∧ digit u 4 = 1 ∧ digit u 2 ≤ 2 ∧ digit u 3 ≤ 2 ∧
          u / 100000 = 0) ∨
        (u % 100 = 3 ∧ digit u 2 = 1 ∧ u / 1000 = 0))

/-! ### Reset and memory -/

/-- R25: what Construct leaves in every piece of state, for every program and flag. -/
def Obligations.ConstructLeavesTheResetValues : Prop :=
  ∀ (program : List Int) (flag : Bool),
    (∀ a : Nat, (State.construct program flag).mem.read a = (program[a]?).getD 0) ∧
    (State.construct program flag).ip = 0 ∧
    (State.construct program flag).rb = 0 ∧
    (State.construct program flag).status = .running ∧
    (State.construct program flag).suspendEn = flag ∧
    (State.construct program flag).fault = none ∧
    (State.construct program flag).inq = [] ∧
    (State.construct program flag).out = [] ∧
    (State.construct program flag).outMark = 0

/-- "two states whose `mem` functions are equal are the same state" (10_state.md section 7). -/
def Obligations.MemoriesThatReadAlikeAreEqual : Prop :=
  ∀ m n : Memory, m.wf → n.wf → (∀ a, m.read a = n.read a) → m = n

/-- A never-written cell at `ip` holds 0, and the step there faults with UnknownOpcode, the empty program's
first step among them (20_memory.md section 1, D25; 40_execution_step.md section 1). -/
def Obligations.StepOnAZeroCellIsUnknownOpcode : Prop :=
  (∀ s : State, Enabled s → s.mem.read s.ip = 0 → step s = .next (s.takeFault .unknownOpcode)) ∧
  ∀ flag, step (State.construct [] flag) =
    .next ((State.construct [] flag).takeFault .unknownOpcode)

/-! ### The step -/

/-- R73: the word at `ip` is decoded afresh; an instruction is run by `exec`, with nothing added around it,
and a decode fault ends the step. -/
def Obligations.StepRunsTheDecodedInstruction : Prop :=
  ∀ s : State, Enabled s →
    (∀ i, decode s.fetchWord = .ok i → step s = exec i s) ∧
    (∀ F, decode s.fetchWord = .error F → step s = .next { s with fault := some F })

/-- R71: when a step exists, that one exists then, and the hold in WaitingForInput. -/
def Obligations.StepExistsExactlyWhenEnabled : Prop :=
  (∀ s : State, Enabled s → ∃ t, step s = .next t) ∧
  (∀ s : State, s.fault ≠ none → step s = .fault .stepAfterFault) ∧
  (∀ s : State, s.fault = none → s.status = .halted → step s = .fault .stepAfterHalt) ∧
  (∀ s : State, Consistent s → s.status = .waitingForInput →
    (∃ m, decode s.fetchWord = .ok (.input m) ∧ step s = exec (.input m) s) ∧
    (s.inq = [] → step s = .next s))

/-- No instruction is refused and none ends in a fault of the host's interface: on every state, in every
mode, `exec` answers a next state (40_execution_step.md section 3). On an ill-formed instruction, one with
an Immediate write parameter, which the spec never runs (R60, R76), the answer is the model's choice: log
entry 6. -/
def Obligations.EveryInstructionAnswersANextState : Prop :=
  ∀ (i : Instr) (s : State), ∃ t, exec i s = .next t

/-! ### The resolver -/

/-- R75, R76, R77: the address of parameter `k` in each mode. -/
def Obligations.ResolverFollowsTheModes : Prop :=
  ∀ (s : State) (k a : Nat),
    (resolve s k .position = .ok a ↔ (a : Int) = s.mem.read (s.ip + k)) ∧
    (resolve s k .immediate = .ok (s.ip + k)) ∧
    (resolve s k .relative = .ok a ↔ (a : Int) = s.rb + s.mem.read (s.ip + k)) ∧
    (∀ m, m ≠ .immediate → resolveWrite s k m = resolve s k m)

/-- R79: the two ways a parameter has a negative address (D4), for read and for write parameters. -/
def Obligations.NegativeAddressExactly : Prop :=
  ∀ (s : State) (k : Nat) (m : Mode) (F : Cause),
    (resolve s k m = .error F ↔
      F = .negativeAddress ∧
        ((m = .position ∧ s.mem.read (s.ip + k) < 0) ∨
          (m = .relative ∧ s.rb + s.mem.read (s.ip + k) < 0))) ∧
    (m ≠ .immediate → (resolveWrite s k m = .error F ↔ resolve s k m = .error F))

/-- R80: every parameter is resolved before any effect, used or not (D8): where one of them has a negative
address the instruction takes NegativeAddress, a jump that would not be taken and an INPUT on an empty
queue among them. -/
def Obligations.UnresolvableParameterFaults : Prop :=
  ∀ (i : Instr) (s : State) (k : Nat) (m : Mode), i.WellFormed → i.modes[k]? = some m →
    resolve s (k + 1) m = .error .negativeAddress →
    exec i s = .next { s with fault := some .negativeAddress }

/-! ### The instructions' results -/

/-- R90. -/
def Obligations.AddStoresTheExactSum : Prop :=
  ∀ (s : State) (m1 m2 m3 : Mode) (a1 a2 a3 : Nat),
    resolve s 1 m1 = .ok a1 → resolve s 2 m2 = .ok a2 → resolveWrite s 3 m3 = .ok a3 →
    (∀ w : Int, decode w = .ok (.add m1 m2 m3) ↔
      w = 1 + 100 * m1.digit + 1000 * m2.digit + 10000 * m3.digit) ∧
    exec (.add m1 m2 m3) s = .next
      { s with mem := s.mem.write a3 (s.mem.read a1 + s.mem.read a2), ip := s.ip + 4 }

/-- R91. -/
def Obligations.MultiplyStoresTheExactProduct : Prop :=
  ∀ (s : State) (m1 m2 m3 : Mode) (a1 a2 a3 : Nat),
    resolve s 1 m1 = .ok a1 → resolve s 2 m2 = .ok a2 → resolveWrite s 3 m3 = .ok a3 →
    (∀ w : Int, decode w = .ok (.multiply m1 m2 m3) ↔
      w = 2 + 100 * m1.digit + 1000 * m2.digit + 10000 * m3.digit) ∧
    exec (.multiply m1 m2 m3) s = .next
      { s with mem := s.mem.write a3 (s.mem.read a1 * s.mem.read a2), ip := s.ip + 4 }

/-- R92. Operand order: D9. -/
def Obligations.LessThanStoresOneOrZero : Prop :=
  ∀ (s : State) (m1 m2 m3 : Mode) (a1 a2 a3 : Nat),
    resolve s 1 m1 = .ok a1 → resolve s 2 m2 = .ok a2 → resolveWrite s 3 m3 = .ok a3 →
    (∀ w : Int, decode w = .ok (.lessThan m1 m2 m3) ↔
      w = 7 + 100 * m1.digit + 1000 * m2.digit + 10000 * m3.digit) ∧
    exec (.lessThan m1 m2 m3) s = .next
      { s with mem := s.mem.write a3 (if s.mem.read a1 < s.mem.read a2 then 1 else 0),
               ip := s.ip + 4 }

/-- R93. -/
def Obligations.EqualsStoresOneOrZero : Prop :=
  ∀ (s : State) (m1 m2 m3 : Mode) (a1 a2 a3 : Nat),
    resolve s 1 m1 = .ok a1 → resolve s 2 m2 = .ok a2 → resolveWrite s 3 m3 = .ok a3 →
    (∀ w : Int, decode w = .ok (.equals m1 m2 m3) ↔
      w = 8 + 100 * m1.digit + 1000 * m2.digit + 10000 * m3.digit) ∧
    exec (.equals m1 m2 m3) s = .next
      { s with mem := s.mem.write a3 (if s.mem.read a1 = s.mem.read a2 then 1 else 0),
               ip := s.ip + 4 }

/-- R100: the oldest input is stored; an empty queue suspends or is a fault; and the faults of the word and
of the destination (negative addresses: D4), the latter before the queue is looked at. -/
def Obligations.InputStoresTheHeadOrWaits : Prop :=
  decode 103 = .error .writeImmediate ∧
  (∀ w : Int, 0 ≤ w → w % 100 = 3 → w ∉ ([3, 103, 203] : List Int) →
    decode w = .error .invalidModes) ∧
  ∀ (s : State) (m1 : Mode), m1 ≠ .immediate →
    (∀ w : Int, decode w = .ok (.input m1) ↔ w = 3 + 100 * m1.digit) ∧
    (operandF1W s m1 = .error .negativeAddress →
      exec (.input m1) s = .next { s with fault := some .negativeAddress }) ∧
    ∀ a1 : Nat, operandF1W s m1 = .ok a1 →
      (∀ v rest, s.inq = v :: rest → exec (.input m1) s = .next
        { s with mem := s.mem.write a1 v, inq := rest, status := .running, ip := s.ip + 2 }) ∧
      (s.inq = [] → s.suspendEn = true →
        exec (.input m1) s = .next { s with status := .waitingForInput }) ∧
      (s.inq = [] → s.suspendEn = false →
        exec (.input m1) s = .next { s with fault := some .inputExhausted })

/-- R101, with the faults of the word and of the parameter (negative addresses: D4). -/
def Obligations.OutputAppendsItsOperand : Prop :=
  (∀ w : Int, 0 ≤ w → w % 100 = 4 → w ∉ ([4, 104, 204] : List Int) →
    decode w = .error .invalidModes) ∧
  ∀ (s : State) (m1 : Mode),
    (∀ w : Int, decode w = .ok (.output m1) ↔ w = 4 + 100 * m1.digit) ∧
    (resolve s 1 m1 = .error .negativeAddress →
      exec (.output m1) s = .next { s with fault := some .negativeAddress }) ∧
    ∀ a1 : Nat, resolve s 1 m1 = .ok a1 →
      exec (.output m1) s = .next { s with out := s.out ++ [s.mem.read a1], ip := s.ip + 2 }

/-- R110, with the taken jump to a negative target (D5). -/
def Obligations.JumpIfTrueGoesToItsTarget : Prop :=
  ∀ (s : State) (m1 m2 : Mode) (a1 a2 : Nat),
    resolve s 1 m1 = .ok a1 → resolve s 2 m2 = .ok a2 →
    (∀ w : Int, decode w = .ok (.jumpIfTrue m1 m2) ↔ w = 5 + 100 * m1.digit + 1000 * m2.digit) ∧
    (∀ target : Nat, s.mem.read a1 ≠ 0 → s.mem.read a2 = target →
      exec (.jumpIfTrue m1 m2) s = .next { s with ip := target }) ∧
    (s.mem.read a1 ≠ 0 → s.mem.read a2 < 0 →
      exec (.jumpIfTrue m1 m2) s = .next { s with fault := some .negativeAddress }) ∧
    (s.mem.read a1 = 0 → exec (.jumpIfTrue m1 m2) s = .next { s with ip := s.ip + 3 })

/-- R111, with the taken jump to a negative target (D5). -/
def Obligations.JumpIfFalseGoesToItsTarget : Prop :=
  ∀ (s : State) (m1 m2 : Mode) (a1 a2 : Nat),
    resolve s 1 m1 = .ok a1 → resolve s 2 m2 = .ok a2 →
    (∀ w : Int, decode w = .ok (.jumpIfFalse m1 m2) ↔ w = 6 + 100 * m1.digit + 1000 * m2.digit) ∧
    (∀ target : Nat, s.mem.read a1 = 0 → s.mem.read a2 = target →
      exec (.jumpIfFalse m1 m2) s = .next { s with ip := target }) ∧
    (s.mem.read a1 = 0 → s.mem.read a2 < 0 →
      exec (.jumpIfFalse m1 m2) s = .next { s with fault := some .negativeAddress }) ∧
    (s.mem.read a1 ≠ 0 → exec (.jumpIfFalse m1 m2) s = .next { s with ip := s.ip + 3 })

/-- R120, with the faults of the word and of the parameter (negative addresses: D4). -/
def Obligations.AdjustBaseAddsToTheRelativeBase : Prop :=
  (∀ w : Int, 0 ≤ w → w % 100 = 9 → w ∉ ([9, 109, 209] : List Int) →
    decode w = .error .invalidModes) ∧
  ∀ (s : State) (m1 : Mode),
    (∀ w : Int, decode w = .ok (.adjustBase m1) ↔ w = 9 + 100 * m1.digit) ∧
    (resolve s 1 m1 = .error .negativeAddress →
      exec (.adjustBase m1) s = .next { s with fault := some .negativeAddress }) ∧
    ∀ a1 : Nat, resolve s 1 m1 = .ok a1 →
      exec (.adjustBase m1) s = .next { s with rb := s.rb + s.mem.read a1, ip := s.ip + 2 }

/-- R121; `ip` stays (D10). -/
def Obligations.HaltChangesOnlyTheStatus : Prop :=
  (∀ w : Int, decode w = .ok .halt ↔ w = 99) ∧
  (∀ w : Int, 0 ≤ w → w % 100 = 99 → w ≠ 99 → decode w = .error .invalidModes) ∧
  (∀ s : State, exec .halt s = .next { s with status := .halted }) ∧
  (∀ s : State, s.fault = none → step { s with status := .halted } = .fault .stepAfterHalt)

/-- A store by any of the five instructions that store is what the next step fetches, where it goes into the
cell after the instruction; over the instruction itself it changes neither the result nor the advance
(20_memory.md section 3; 41_alu.md; 42_io.md). -/
def Obligations.StoreIsSeenByTheNextFetch : Prop :=
  (∀ (s : State) (m1 m2 m3 : Mode) (a1 a2 a3 : Nat),
    resolve s 1 m1 = .ok a1 → resolve s 2 m2 = .ok a2 → resolveWrite s 3 m3 = .ok a3 →
    ∀ p ∈ ([(.add m1 m2 m3, s.mem.read a1 + s.mem.read a2),
        (.multiply m1 m2 m3, s.mem.read a1 * s.mem.read a2),
        (.lessThan m1 m2 m3, if s.mem.read a1 < s.mem.read a2 then 1 else 0),
        (.equals m1 m2 m3, if s.mem.read a1 = s.mem.read a2 then 1 else 0)] : List (Instr × Int)),
      ∃ t, exec p.1 s = .next t ∧ t.ip = s.ip + 4 ∧ t.mem.read a3 = p.2 ∧
        (a3 = s.ip + 4 → t.fetchWord = p.2)) ∧
  ∀ (s : State) (m1 : Mode) (a1 : Nat) (v : Int) (rest : List Int),
    operandF1W s m1 = .ok a1 → s.inq = v :: rest →
    ∃ t, exec (.input m1) s = .next t ∧ t.ip = s.ip + 2 ∧ t.mem.read a1 = v ∧
      (a1 = s.ip + 2 → t.fetchWord = v)

/-! ### Frames -/

/-- What ADD, MULTIPLY, LESS_THAN and EQUALS leave unchanged: all but `ip`, the cell stored to, and, where
they fault, the latch. -/
def Obligations.AluFrame : Prop :=
  ∀ (m1 m2 m3 : Mode) (i : Instr) (s t : State),
    i ∈ [Instr.add m1 m2 m3, Instr.multiply m1 m2 m3, Instr.lessThan m1 m2 m3,
      Instr.equals m1 m2 m3] →
    exec i s = .next t →
    t.rb = s.rb ∧ t.status = s.status ∧ t.suspendEn = s.suspendEn ∧ t.inq = s.inq ∧
    t.out = s.out ∧ t.outMark = s.outMark ∧
    (t.fault = s.fault ∨ ∃ F, t = s.takeFault F) ∧
    ∀ b, resolveWrite s 3 m3 ≠ .ok b → t.mem.read b = s.mem.read b

/-- What INPUT leaves unchanged: all but `ip`, the status, the queue's head, the cell stored to, and, where
it faults, the latch. On an empty queue memory is unchanged too. -/
def Obligations.InputFrame : Prop :=
  ∀ (m1 : Mode) (s t : State), exec (.input m1) s = .next t →
    t.rb = s.rb ∧ t.suspendEn = s.suspendEn ∧ t.out = s.out ∧ t.outMark = s.outMark ∧
    (t.inq = s.inq ∨ t.inq = s.inq.tail) ∧
    (t.fault = s.fault ∨ ∃ F, t = s.takeFault F) ∧
    (∀ b, operandF1W s m1 ≠ .ok b → t.mem.read b = s.mem.read b) ∧
    (s.inq = [] → t.mem = s.mem ∧ t.ip = s.ip)

/-- What the instructions without a write parameter leave unchanged: memory and the queue always, `out` but
by OUTPUT, `rb` but by ADJUST_BASE, the status but by HALT; HALT leaves `ip` too. -/
def Obligations.NonStoringFrame : Prop :=
  ∀ (i : Instr) (s t : State),
    ((∃ m, i = .output m) ∨ (∃ m n, i = .jumpIfTrue m n) ∨ (∃ m n, i = .jumpIfFalse m n) ∨
      (∃ m, i = .adjustBase m) ∨ i = .halt) →
    exec i s = .next t →
    (∀ b, t.mem.read b = s.mem.read b) ∧ t.inq = s.inq ∧ t.suspendEn = s.suspendEn ∧
    t.outMark = s.outMark ∧
    ((∀ m, i ≠ .output m) → t.out = s.out) ∧
    ((∀ m, i ≠ .adjustBase m) → t.rb = s.rb) ∧
    (i ≠ .halt → t.status = s.status) ∧
    (i = .halt → t.ip = s.ip ∧ t.fault = s.fault) ∧
    (t.fault = s.fault ∨ ∃ F, t = s.takeFault F)

/-! ### Whole-machine rules -/

/-- "adjusted only by the ADJUST_BASE operation" (10_state.md section 4). -/
def Obligations.OnlyAdjustBaseChangesTheRelativeBase : Prop :=
  ∀ s t : State, step s = .next t → t.rb ≠ s.rb →
    ∃ m, decode s.fetchWord = .ok (.adjustBase m)

/-- "Nothing ever removes or rewrites an element of `out`", and only OUTPUT appends, one value a step
(10_state.md section 6). -/
def Obligations.OutputIsAppendOnly : Prop :=
  ∀ s t : State, step s = .next t →
    t.out = s.out ∨
      ∃ m v, decode s.fetchWord = .ok (.output m) ∧ operandF1R s m = .ok v ∧ t.out = s.out ++ [v]

/-- Only INPUT takes from the queue, exactly one value, the oldest (10_state.md section 6). -/
def Obligations.OnlyInputConsumesTheQueue : Prop :=
  ∀ s t : State, step s = .next t →
    t.inq = s.inq ∨ ∃ m v, decode s.fetchWord = .ok (.input m) ∧ s.inq = v :: t.inq

/-- "no instruction and no host operation changes it after Construct" (10_state.md section 4), and a step
leaves `out_mark` to the host. -/
def Obligations.SuspendFlagNeverChanges : Prop :=
  (∀ s t : State, step s = .next t → t.suspendEn = s.suspendEn ∧ t.outMark = s.outMark) ∧
  ∀ (policy : LeftoverPolicy) (fuel : Nat) (s t : State) (inputs : List Int) (r : RunResult),
    run policy fuel s inputs = some (r, t) → t.suspendEn = s.suspendEn

/-- R136: fault entry. The latch alone changes, no further step is enabled, and a run call in progress ends
with the failure. -/
def Obligations.FaultEntryChangesOnlyTheLatch : Prop :=
  ∀ (s t : State) (F : Cause), step s = .next t → t.fault = some F →
    t = { s with fault := some F } ∧
    step t = .fault .stepAfterFault ∧
    ∀ fuel, runLoop (fuel + 1) s = some (.failure F, t)

/-- Which instruction can raise which cause (60_exceptions.md section 1, the table the spec marks as
derived). The three decode causes are the decoder's. -/
def Obligations.WhichInstructionRaisesWhichCause : Prop :=
  ∀ (i : Instr) (s t : State) (F : Cause), i.WellFormed → s.fault = none → exec i s = .next t →
    t.fault = some F →
    (F = .negativeAddress ∧ i ≠ .halt) ∨
    (F = .inputExhausted ∧ (∃ m, i = .input m) ∧ s.inq = [] ∧ s.suspendEn = false)

/-- "only a step started from Running can fault" (10_state.md section 4, which the spec marks as derived). -/
def Obligations.OnlyARunningMachineFaults : Prop :=
  ∀ s t : State, Consistent s → step s = .next t → t.fault ≠ none → s.status = .running

/-- The status transitions (10_state.md section 4). -/
def Obligations.StatusTransitions : Prop :=
  ∀ s t : State, Consistent s → step s = .next t →
    (t.status = .halted ↔ decode s.fetchWord = .ok .halt) ∧
    (t.status = .waitingForInput ↔
      AtInput s ∧ s.inq = [] ∧ s.suspendEn = true) ∧
    (s.status = .waitingForInput → s.inq ≠ [] → t.status = .running)

/-- The four outcomes of a step and the state after each (40_execution_step.md section 3). -/
def Obligations.StepEndsInOneOfFourWays : Prop :=
  ∀ s t : State, Consistent s → step s = .next t →
    (outcomeOf t = .continues ∧ t.status = .running ∧ Enabled t) ∨
    (outcomeOf t = .suspended ∧ t = { s with status := .waitingForInput }) ∨
    (outcomeOf t = .halted ∧ t = { s with status := .halted }) ∨
    (∃ F, outcomeOf t = .fault F ∧ t = { s with fault := some F })

/-! ### Invariants -/

/-- Every step keeps the invariants of 10_state.md section 10. -/
def Obligations.EveryStepKeepsConsistent : Prop :=
  ∀ s t : State, Consistent s → step s = .next t → Consistent t

/-- The state after reset meets them. -/
def Obligations.ResetIsConsistent : Prop :=
  Consistent State.reset

/-- The machine Construct returns meets them, whatever the program, and a run call may begin on it. -/
def Obligations.ConstructedMachineIsIdle : Prop :=
  ∀ (program : List Int) (flag : Bool), Idle (State.construct program flag)

/-- Whatever the host does, every state of an instance meets them (R27's "every reachable state", here for
the model's `Consistent`), and between run calls a machine that a call would run has an empty queue
(70_reset_and_hazards.md section 2, which the spec marks as derived). -/
def Obligations.ReachableStatesAreConsistent : Prop :=
  ∀ (p : HostPhase) (s : State), Reachable p s → Consistent s ∧ (p = .betweenCalls → Idle s)

/-- A Run call leaves a machine on which the next one begins with an empty queue, if it executes anything
(70_reset_and_hazards.md section 2, which the spec marks as derived). -/
def Obligations.RunKeepsIdle : Prop :=
  ∀ (policy : LeftoverPolicy) (fuel : Nat) (s t : State) (inputs : List Int) (r : RunResult),
    Idle s → run policy fuel s inputs = some (r, t) → Idle t

/-! ### The host contract -/

/-- The open parameter P9 has no effect on what a call executes or returns (70_reset_and_hazards.md
section 2, which the spec marks as derived). That the states after it are the same too, `inq` after a halt
or a fault among them, is the model's choice: log entry 15. -/
def Obligations.LeftoverPolicyHasNoEffect : Prop :=
  ∀ (fuel : Nat) (s : State) (inputs : List Int), Idle s →
    run .persist fuel s inputs = run .discard fuel s inputs

/-- R164 (D13). -/
def Obligations.RunOnAHaltedMachineIsANoOp : Prop :=
  ∀ (policy : LeftoverPolicy) (fuel : Nat) (s : State) (inputs : List Int), Finished s →
    run policy fuel s inputs = some (.ok [], s)

/-- R165 (D14). -/
def Obligations.RunOnAFaultedMachineFailsAgain : Prop :=
  ∀ (policy : LeftoverPolicy) (fuel : Nat) (s : State) (inputs : List Int) (F : Cause),
    s.fault = some F → run policy fuel s inputs = some (.failure F, s)

/-- A call that returns outputs returns exactly what the call appended to `out`
(70_reset_and_hazards.md section 2). -/
def Obligations.RunReturnsTheOutputsOfTheCall : Prop :=
  ∀ (policy : LeftoverPolicy) (fuel : Nat) (s t : State) (inputs outputs : List Int),
    run policy fuel s inputs = some (.ok outputs, t) → t.out = s.out ++ outputs

/-- How a Run call ends (70_reset_and_hazards.md section 2): suspended with an empty queue, halted, or
failed; a failing call keeps the outputs it had produced (D16). -/
def Obligations.RunEndsSuspendedHaltedOrFailed : Prop :=
  ∀ (policy : LeftoverPolicy) (fuel : Nat) (s t : State) (inputs : List Int) (r : RunResult),
    Consistent s → run policy fuel s inputs = some (r, t) →
    (∃ outputs, r = .ok outputs ∧ t.fault = none ∧
      (t.status = .halted ∨ (t.status = .waitingForInput ∧ t.inq = [] ∧ AtInput t))) ∨
    (∃ F, r = .failure F ∧ t.fault = some F ∧ ∃ more, t.out = s.out ++ more)

/-- The fuel of the model's Run is no part of the answer (40_execution_step.md section 1: "there is exactly
one result"; the fuel is the model's, log entry 10). -/
def Obligations.MoreFuelDoesNotChangeARun : Prop :=
  ∀ (policy : LeftoverPolicy) (fuel extra : Nat) (s : State) (inputs : List Int)
    (r : RunResult × State),
    run policy fuel s inputs = some r → run policy (fuel + extra) s inputs = some r

/-- R163. -/
def Obligations.IsHaltedReportsTheStatus : Prop :=
  (∀ s : State, isHalted s = true ↔ s.status = .halted) ∧
  (∀ program flag, isHalted (State.construct program flag) = false) ∧
  (∀ s : State, s.status = .waitingForInput → isHalted s = false) ∧
  (∀ s : State, Consistent s → s.fault ≠ none → isHalted s = false) ∧
  ∀ (policy : LeftoverPolicy) (fuel : Nat) (s t : State) (inputs : List Int) (r : RunResult),
    isHalted s = true → run policy fuel s inputs = some (r, t) → isHalted t = true

/-- The codes of the fault causes (60_exceptions.md section 1, D12: they carry no other meaning). -/
def Obligations.FaultCodesAreDistinct : Prop :=
  (∀ f g : Option Cause, faultCode f = faultCode g → f = g) ∧
  ∀ f : Option Cause, faultCode f ≤ 5 ∧ (faultCode f = 0 ↔ f = none)

/-! ### Several instances -/

/-- "machines never share mutable state directly" (60_exceptions.md section 7): a call on instance `k` is the
Run call on that instance alone, and the others stay as they were. -/
def Obligations.InstancesShareNothing : Prop :=
  ∀ (policy : LeftoverPolicy) (fuel : Nat) (ms ms' : List State) (k : Nat) (inputs : List Int)
    (r : RunResult),
    runInstance policy fuel ms k inputs = some (r, ms') ↔
    ∃ m m', ms[k]? = some m ∧ run policy fuel m inputs = some (r, m') ∧ ms'[k]? = some m' ∧
      ms'.length = ms.length ∧ ∀ j, j ≠ k → ms'[j]? = ms[j]?

/-- "this requires exploring every permutation of the phase set" (60_exceptions.md section 7). For a list
with a repeated phase, which is no phase set, this is the model's choice: log entry 16. -/
def Obligations.PhaseAssignmentsAreThePermutations : Prop :=
  ∀ phases p : List Int, p ∈ phaseAssignments phases ↔ p.Perm phases

/-- The maximum final output is the value of some assignment and no assignment's value exceeds it
(60_exceptions.md section 7). That every trial must have a value is the model's (log entry 12), and so is
what a list with a repeated phase does (log entry 16). -/
def Obligations.MaxSignalIsTheMaximum : Prop :=
  ∀ (policy : LeftoverPolicy) (fuel rounds : Nat) (program phases : List Int) (v : Int),
    maxSignal policy fuel rounds program phases = some v →
    (∃ p, p.Perm phases ∧ trial policy fuel rounds program p = .value v) ∧
    ∀ p, p.Perm phases → ∃ w, trial policy fuel rounds program p = .value w ∧ w ≤ v

/-- A machine that answers no output, several, or a failure ends the trial (60_exceptions.md section 7,
D21). -/
def Obligations.RoundRefusesOtherThanOneOutput : Prop :=
  ∀ (policy : LeftoverPolicy) (fuel k : Nat) (before : List Int) (rest : List (Nat × List Int))
    (ms ms' : List State) (carried : Int),
    (∀ outputs, runInstance policy fuel ms k (before ++ [carried]) = some (.ok outputs, ms') →
      outputs.length ≠ 1 →
      passRound policy fuel ((k, before) :: rest) ms carried = .refused .notOneOutput) ∧
    (∀ F, runInstance policy fuel ms k (before ++ [carried]) = some (.failure F, ms') →
      passRound policy fuel ((k, before) :: rest) ms carried = .refused (.machineFaulted F)) ∧
    (∀ o, runInstance policy fuel ms k (before ++ [carried]) = some (.ok [o], ms') →
      passRound policy fuel ((k, before) :: rest) ms carried = passRound policy fuel rest ms' o)

/-! ### Run calls -/

/-- What a Run call does with its inputs, and the mark it sets (70_reset_and_hazards.md section 2): they
become the queue, after what was left there under `persist`, instead of it under `discard`. When `discard`
drops what was left: log entry 15. -/
def Obligations.RunAdmitsItsInputs : Prop :=
  ∀ (fuel : Nat) (s : State) (inputs : List Int), Enabled s →
    run .persist fuel s inputs =
      runLoop fuel { s with inq := s.inq ++ inputs, outMark := s.out.length } ∧
    run .discard fuel s inputs = runLoop fuel { s with inq := inputs, outMark := s.out.length } ∧
    (Idle s → ∀ policy : LeftoverPolicy, run policy fuel s inputs =
      runLoop fuel { s with inq := inputs, outMark := s.out.length })

/-- Each way out of the loop of Run, and its going on (70_reset_and_hazards.md section 2), over the outcomes
of a step (40_execution_step.md section 3). -/
def Obligations.RunLoopTakesEachExit : Prop :=
  ∀ (n : Nat) (s t : State), step s = .next t →
    (outcomeOf t = .continues → runLoop (n + 1) s = runLoop n t) ∧
    (outcomeOf t = .suspended → runLoop (n + 1) s = some (.ok (t.out.drop t.outMark), t)) ∧
    (outcomeOf t = .halted → runLoop (n + 1) s = some (.ok (t.out.drop t.outMark), t)) ∧
    ∀ F, outcomeOf t = .fault F → runLoop (n + 1) s = some (.failure F, t)

/-- A Run call that returns is made of the host's moves, so it begins and ends between calls
(70_reset_and_hazards.md section 5). -/
def Obligations.RunLeadsToReachableStates : Prop :=
  ∀ (policy : LeftoverPolicy) (fuel : Nat) (s t : State) (inputs : List Int) (r : RunResult),
    Reachable .betweenCalls s → run policy fuel s inputs = some (r, t) → Reachable .betweenCalls t

/-- While a Run call executes, the host has no move: only a step happens, and it ends the call exactly if its
outcome is not Continue. Nothing is put into the queue and the mark stays. Between calls, but for a single
step, a call begins and changes `inq` and the mark alone, or changes nothing (70_reset_and_hazards.md
section 5, D23). -/
def Obligations.HostMovesOnlyBetweenCalls : Prop :=
  (∀ (s t : State) (q : HostPhase), Transition .inCall s q t →
    step s = .next t ∧ (q = .inCall ↔ outcomeOf t = .continues) ∧
    (t.inq = s.inq ∨ ∃ v, s.inq = v :: t.inq) ∧ t.outMark = s.outMark) ∧
  ∀ (s t : State) (q : HostPhase), Transition .betweenCalls s q t →
    (q = .inCall ∧ Enabled s ∧ ∃ inputs,
      t = { s with inq := s.inq ++ inputs, outMark := s.out.length } ∨
      t = { s with inq := inputs, outMark := s.out.length }) ∨
    (q = .betweenCalls ∧ ¬ Enabled s ∧ t = s) ∨
    (q = .betweenCalls ∧ step s = .next t)
end

