-- ==== Sys2Proof/Laws/Decode.lean ====
section
/-!
SUPPORT. What the decoder's parts can answer, said once each.
-/

namespace Sys2Proof

/-- R54: the three legal digits. -/
theorem modeOfDigit_eq_some {d : Nat} {m : Mode} : modeOfDigit d = some m ↔ d = m.digit := by
  rcases d with _ | _ | _ | d <;> cases m <;> simp [modeOfDigit, Mode.digit]

/-- R54: the digits that name no mode. -/
theorem modeOfDigit_eq_none {d : Nat} : modeOfDigit d = none ↔ 3 ≤ d := by
  rcases d with _ | _ | _ | d <;> simp [modeOfDigit]

@[simp] theorem modeOfDigit_digit (m : Mode) : modeOfDigit m.digit = some m :=
  modeOfDigit_eq_some.mpr rfl

/-- R53, R54: a legal mode digit in its place, in terms of division. -/
theorem modeAt_eq_some {q k : Nat} {m : Mode} : modeAt q k = some m ↔ q / 10 ^ (k - 1) % 10 = m.digit := by
  unfold modeAt modeDigit digit
  exact modeOfDigit_eq_some

/-- R53, R54: an illegal mode digit in its place. -/
theorem modeAt_eq_none {q k : Nat} : modeAt q k = none ↔ 3 ≤ q / 10 ^ (k - 1) % 10 := by
  unfold modeAt modeDigit digit
  exact modeOfDigit_eq_none

/-- A word that is a natural number decodes by its opcode and the rest. -/
theorem decode_natCast (n : Nat) : decode (n : Int) = decodeOp (n % 100) (n / 100) := by
  unfold decode
  rw [if_neg (by omega), Int.toNat_natCast]

/-- R61: a negative word. -/
theorem decode_of_neg {w : Int} (h : w < 0) : decode w = .error .unknownOpcode := if_pos h

theorem Mode.digit_lt (m : Mode) : m.digit < 3 := by cases m <;> decide

/-- Format F0 answers exactly where nothing stands above the opcode. -/
theorem decodeF0_eq_ok {i j : Instr} {q : Nat} :
    decodeF0 i q = .ok j ↔ leftover q 0 = 0 ∧ i = j := by
  unfold decodeF0; split <;> simp_all

/-- Format F1R answers exactly where its mode is legal and nothing is left over. -/
theorem decodeF1R_eq_ok {mk : Mode → Instr} {q : Nat} {i : Instr} :
    decodeF1R mk q = .ok i ↔ leftover q 1 = 0 ∧ ∃ m1, modeAt q 1 = some m1 ∧ mk m1 = i := by
  unfold decodeF1R
  cases modeAt q 1 <;> split <;> simp_all

/-- Format F1W answers exactly where, besides, the mode is writable. -/
theorem decodeF1W_eq_ok {mk : Mode → Instr} {q : Nat} {i : Instr} :
    decodeF1W mk q = .ok i ↔
      leftover q 1 = 0 ∧ ∃ m1, modeAt q 1 = some m1 ∧ m1.IsWritable ∧ mk m1 = i := by
  unfold decodeF1W
  cases modeAt q 1 <;> split <;> simp_all
  split <;> simp_all

/-- Format F2R answers exactly where both modes are legal and nothing is left over. -/
theorem decodeF2R_eq_ok {mk : Mode → Mode → Instr} {q : Nat} {i : Instr} :
    decodeF2R mk q = .ok i ↔
      leftover q 2 = 0 ∧ ∃ m1 m2, modeAt q 1 = some m1 ∧ modeAt q 2 = some m2 ∧ mk m1 m2 = i := by
  unfold decodeF2R
  cases modeAt q 1 <;> cases modeAt q 2 <;> split <;> simp_all

/-- Format F3W answers exactly where the modes are legal, the third writable, and nothing is left over. -/
theorem decodeF3W_eq_ok {mk : Mode → Mode → Mode → Instr} {q : Nat} {i : Instr} :
    decodeF3W mk q = .ok i ↔
      leftover q 3 = 0 ∧ ∃ m1 m2 m3, modeAt q 1 = some m1 ∧ modeAt q 2 = some m2 ∧
        modeAt q 3 = some m3 ∧ m3.IsWritable ∧ mk m1 m2 m3 = i := by
  unfold decodeF3W
  cases modeAt q 1 <;> cases modeAt q 2 <;> cases modeAt q 3 <;> split <;> simp_all
  split <;> simp_all

end Sys2Proof
end

