-- ==== Sys2Proof/Laws/Operands.lean ====
section
/-!
SUPPORT. What the resolver and the operand forms can answer, said once each.
-/

namespace Sys2Proof.Machine

/-- An integer is an address exactly where it is not negative. -/
theorem toAddr_eq_ok {x : Int} {a : Nat} : toAddr x = .ok a ↔ x = a := by
  unfold toAddr
  split
  · simp only [reduceCtorEq, false_iff]; omega
  · simp only [Except.ok.injEq]; omega

/-- The one cause `toAddr` raises, and where. -/
theorem toAddr_eq_error {x : Int} {F : Cause} :
    toAddr x = .error F ↔ F = .negativeAddress ∧ x < 0 := by
  unfold toAddr
  split
  · next h => simp [h, eq_comm]
  · next h => simp [h]

/-- R79: the only cause the resolver raises. -/
theorem resolve_error {s : State} {k : Nat} {m : Mode} {F : Cause} (h : resolve s k m = .error F) :
    F = .negativeAddress := by
  cases m
  · exact (toAddr_eq_error.mp h).1
  · cases h
  · exact (toAddr_eq_error.mp h).1

theorem resolveWrite_of_ne {s : State} {k : Nat} {m : Mode} (h : m ≠ .immediate) :
    resolveWrite s k m = resolve s k m := if_neg h

/-- A write address comes from a writable mode, and is the resolver's. -/
theorem resolveWrite_eq_ok {s : State} {k : Nat} {m : Mode} {a : Nat} :
    resolveWrite s k m = .ok a ↔ m ≠ .immediate ∧ resolve s k m = .ok a := by
  unfold resolveWrite
  split
  · next h => simp [h]
  · next h => simp [h]

/-- What format F3W's operands can answer where they answer. -/
theorem operandsF3W_eq_ok {s : State} {m1 m2 m3 : Mode} {v1 v2 : Int} {a3 : Nat} :
    operandsF3W s m1 m2 m3 = .ok (v1, v2, a3) ↔
      ∃ a1 a2, resolve s 1 m1 = .ok a1 ∧ resolve s 2 m2 = .ok a2 ∧ resolveWrite s 3 m3 = .ok a3 ∧
        v1 = s.mem.read a1 ∧ v2 = s.mem.read a2 := by
  unfold operandsF3W
  cases resolve s 1 m1 <;> cases resolve s 2 m2 <;> cases resolveWrite s 3 m3 <;>
    simp [eq_comm, and_comm, and_left_comm]

/-- Where format F3W's operands raise a cause, one of the three parameters does. -/
theorem operandsF3W_error {s : State} {m1 m2 m3 : Mode} {F : Cause}
    (h : operandsF3W s m1 m2 m3 = .error F) :
    resolve s 1 m1 = .error F ∨ resolve s 2 m2 = .error F ∨ resolveWrite s 3 m3 = .error F := by
  revert h
  unfold operandsF3W
  cases resolve s 1 m1 <;> cases resolve s 2 m2 <;> cases resolveWrite s 3 m3 <;> simp_all

/-- What format F2R's operands can answer where they answer. -/
theorem operandsF2R_eq_ok {s : State} {m1 m2 : Mode} {v1 v2 : Int} :
    operandsF2R s m1 m2 = .ok (v1, v2) ↔
      ∃ a1 a2, resolve s 1 m1 = .ok a1 ∧ resolve s 2 m2 = .ok a2 ∧
        v1 = s.mem.read a1 ∧ v2 = s.mem.read a2 := by
  unfold operandsF2R
  cases resolve s 1 m1 <;> cases resolve s 2 m2 <;> simp [eq_comm]

/-- Where format F2R's operands raise a cause, one of the two parameters does. -/
theorem operandsF2R_error {s : State} {m1 m2 : Mode} {F : Cause}
    (h : operandsF2R s m1 m2 = .error F) :
    resolve s 1 m1 = .error F ∨ resolve s 2 m2 = .error F := by
  revert h
  unfold operandsF2R
  cases resolve s 1 m1 <;> cases resolve s 2 m2 <;> simp_all

/-- What format F1R's operand can answer where it answers. -/
theorem operandF1R_eq_ok {s : State} {m1 : Mode} {v1 : Int} :
    operandF1R s m1 = .ok v1 ↔ ∃ a1, resolve s 1 m1 = .ok a1 ∧ v1 = s.mem.read a1 := by
  unfold operandF1R
  cases resolve s 1 m1 <;> simp [eq_comm]

/-- Format F1R's operand raises a cause where its parameter does. -/
theorem operandF1R_eq_error {s : State} {m1 : Mode} {F : Cause} :
    operandF1R s m1 = .error F ↔ resolve s 1 m1 = .error F := by
  unfold operandF1R
  cases resolve s 1 m1 <;> simp

end Sys2Proof.Machine
end

