-- ==== Sys2Proof/Laws/State.lean ====
section
/-!
SUPPORT. One lemma per field per update of the state, each true by unfolding, so that no proof unfolds a
record update.
-/

namespace Sys2Proof.Machine

/-! ### store -/

@[simp] theorem State.store_mem (s : State) (a : Nat) (v : Int) : (s.store a v).mem = s.mem.write a v := rfl
@[simp] theorem State.store_ip (s : State) (a : Nat) (v : Int) : (s.store a v).ip = s.ip := rfl
@[simp] theorem State.store_rb (s : State) (a : Nat) (v : Int) : (s.store a v).rb = s.rb := rfl
@[simp] theorem State.store_status (s : State) (a : Nat) (v : Int) : (s.store a v).status = s.status := rfl
@[simp] theorem State.store_suspendEn (s : State) (a : Nat) (v : Int) : (s.store a v).suspendEn = s.suspendEn := rfl
@[simp] theorem State.store_fault (s : State) (a : Nat) (v : Int) : (s.store a v).fault = s.fault := rfl
@[simp] theorem State.store_inq (s : State) (a : Nat) (v : Int) : (s.store a v).inq = s.inq := rfl
@[simp] theorem State.store_out (s : State) (a : Nat) (v : Int) : (s.store a v).out = s.out := rfl
@[simp] theorem State.store_outMark (s : State) (a : Nat) (v : Int) : (s.store a v).outMark = s.outMark := rfl

/-! ### advance -/

@[simp] theorem State.advance_mem (s : State) (n : Nat) : (s.advance n).mem = s.mem := rfl
@[simp] theorem State.advance_ip (s : State) (n : Nat) : (s.advance n).ip = s.ip + n + 1 := rfl
@[simp] theorem State.advance_rb (s : State) (n : Nat) : (s.advance n).rb = s.rb := rfl
@[simp] theorem State.advance_status (s : State) (n : Nat) : (s.advance n).status = s.status := rfl
@[simp] theorem State.advance_suspendEn (s : State) (n : Nat) : (s.advance n).suspendEn = s.suspendEn := rfl
@[simp] theorem State.advance_fault (s : State) (n : Nat) : (s.advance n).fault = s.fault := rfl
@[simp] theorem State.advance_inq (s : State) (n : Nat) : (s.advance n).inq = s.inq := rfl
@[simp] theorem State.advance_out (s : State) (n : Nat) : (s.advance n).out = s.out := rfl
@[simp] theorem State.advance_outMark (s : State) (n : Nat) : (s.advance n).outMark = s.outMark := rfl

/-! ### jumpTo -/

@[simp] theorem State.jumpTo_mem (s : State) (a : Nat) : (s.jumpTo a).mem = s.mem := rfl
@[simp] theorem State.jumpTo_ip (s : State) (a : Nat) : (s.jumpTo a).ip = a := rfl
@[simp] theorem State.jumpTo_rb (s : State) (a : Nat) : (s.jumpTo a).rb = s.rb := rfl
@[simp] theorem State.jumpTo_status (s : State) (a : Nat) : (s.jumpTo a).status = s.status := rfl
@[simp] theorem State.jumpTo_suspendEn (s : State) (a : Nat) : (s.jumpTo a).suspendEn = s.suspendEn := rfl
@[simp] theorem State.jumpTo_fault (s : State) (a : Nat) : (s.jumpTo a).fault = s.fault := rfl
@[simp] theorem State.jumpTo_inq (s : State) (a : Nat) : (s.jumpTo a).inq = s.inq := rfl
@[simp] theorem State.jumpTo_out (s : State) (a : Nat) : (s.jumpTo a).out = s.out := rfl
@[simp] theorem State.jumpTo_outMark (s : State) (a : Nat) : (s.jumpTo a).outMark = s.outMark := rfl

/-! ### addBase -/

@[simp] theorem State.addBase_mem (s : State) (v : Int) : (s.addBase v).mem = s.mem := rfl
@[simp] theorem State.addBase_ip (s : State) (v : Int) : (s.addBase v).ip = s.ip := rfl
@[simp] theorem State.addBase_rb (s : State) (v : Int) : (s.addBase v).rb = s.rb + v := rfl
@[simp] theorem State.addBase_status (s : State) (v : Int) : (s.addBase v).status = s.status := rfl
@[simp] theorem State.addBase_suspendEn (s : State) (v : Int) : (s.addBase v).suspendEn = s.suspendEn := rfl
@[simp] theorem State.addBase_fault (s : State) (v : Int) : (s.addBase v).fault = s.fault := rfl
@[simp] theorem State.addBase_inq (s : State) (v : Int) : (s.addBase v).inq = s.inq := rfl
@[simp] theorem State.addBase_out (s : State) (v : Int) : (s.addBase v).out = s.out := rfl
@[simp] theorem State.addBase_outMark (s : State) (v : Int) : (s.addBase v).outMark = s.outMark := rfl

/-! ### emit -/

@[simp] theorem State.emit_mem (s : State) (v : Int) : (s.emit v).mem = s.mem := rfl
@[simp] theorem State.emit_ip (s : State) (v : Int) : (s.emit v).ip = s.ip := rfl
@[simp] theorem State.emit_rb (s : State) (v : Int) : (s.emit v).rb = s.rb := rfl
@[simp] theorem State.emit_status (s : State) (v : Int) : (s.emit v).status = s.status := rfl
@[simp] theorem State.emit_suspendEn (s : State) (v : Int) : (s.emit v).suspendEn = s.suspendEn := rfl
@[simp] theorem State.emit_fault (s : State) (v : Int) : (s.emit v).fault = s.fault := rfl
@[simp] theorem State.emit_inq (s : State) (v : Int) : (s.emit v).inq = s.inq := rfl
@[simp] theorem State.emit_out (s : State) (v : Int) : (s.emit v).out = s.out ++ [v] := rfl
@[simp] theorem State.emit_outMark (s : State) (v : Int) : (s.emit v).outMark = s.outMark := rfl

/-! ### dropInput -/

@[simp] theorem State.dropInput_mem (s : State) : s.dropInput.mem = s.mem := rfl
@[simp] theorem State.dropInput_ip (s : State) : s.dropInput.ip = s.ip := rfl
@[simp] theorem State.dropInput_rb (s : State) : s.dropInput.rb = s.rb := rfl
@[simp] theorem State.dropInput_status (s : State) : s.dropInput.status = s.status := rfl
@[simp] theorem State.dropInput_suspendEn (s : State) : s.dropInput.suspendEn = s.suspendEn := rfl
@[simp] theorem State.dropInput_fault (s : State) : s.dropInput.fault = s.fault := rfl
@[simp] theorem State.dropInput_inq (s : State) : s.dropInput.inq = s.inq.tail := rfl
@[simp] theorem State.dropInput_out (s : State) : s.dropInput.out = s.out := rfl
@[simp] theorem State.dropInput_outMark (s : State) : s.dropInput.outMark = s.outMark := rfl

/-! ### setStatus -/

@[simp] theorem State.setStatus_mem (s : State) (x : Status) : (s.setStatus x).mem = s.mem := rfl
@[simp] theorem State.setStatus_ip (s : State) (x : Status) : (s.setStatus x).ip = s.ip := rfl
@[simp] theorem State.setStatus_rb (s : State) (x : Status) : (s.setStatus x).rb = s.rb := rfl
@[simp] theorem State.setStatus_status (s : State) (x : Status) : (s.setStatus x).status = x := rfl
@[simp] theorem State.setStatus_suspendEn (s : State) (x : Status) : (s.setStatus x).suspendEn = s.suspendEn := rfl
@[simp] theorem State.setStatus_fault (s : State) (x : Status) : (s.setStatus x).fault = s.fault := rfl
@[simp] theorem State.setStatus_inq (s : State) (x : Status) : (s.setStatus x).inq = s.inq := rfl
@[simp] theorem State.setStatus_out (s : State) (x : Status) : (s.setStatus x).out = s.out := rfl
@[simp] theorem State.setStatus_outMark (s : State) (x : Status) : (s.setStatus x).outMark = s.outMark := rfl

/-! ### takeFault -/

@[simp] theorem State.takeFault_mem (s : State) (F : Cause) : (s.takeFault F).mem = s.mem := rfl
@[simp] theorem State.takeFault_ip (s : State) (F : Cause) : (s.takeFault F).ip = s.ip := rfl
@[simp] theorem State.takeFault_rb (s : State) (F : Cause) : (s.takeFault F).rb = s.rb := rfl
@[simp] theorem State.takeFault_status (s : State) (F : Cause) : (s.takeFault F).status = s.status := rfl
@[simp] theorem State.takeFault_suspendEn (s : State) (F : Cause) : (s.takeFault F).suspendEn = s.suspendEn := rfl
@[simp] theorem State.takeFault_fault (s : State) (F : Cause) : (s.takeFault F).fault = some F := rfl
@[simp] theorem State.takeFault_inq (s : State) (F : Cause) : (s.takeFault F).inq = s.inq := rfl
@[simp] theorem State.takeFault_out (s : State) (F : Cause) : (s.takeFault F).out = s.out := rfl
@[simp] theorem State.takeFault_outMark (s : State) (F : Cause) : (s.takeFault F).outMark = s.outMark := rfl

/-! ### beginCall -/

@[simp] theorem State.beginCall_mem (s : State) (p : LeftoverPolicy) (xs : List Int) : (s.beginCall p xs).mem = s.mem := rfl
@[simp] theorem State.beginCall_ip (s : State) (p : LeftoverPolicy) (xs : List Int) : (s.beginCall p xs).ip = s.ip := rfl
@[simp] theorem State.beginCall_rb (s : State) (p : LeftoverPolicy) (xs : List Int) : (s.beginCall p xs).rb = s.rb := rfl
@[simp] theorem State.beginCall_status (s : State) (p : LeftoverPolicy) (xs : List Int) : (s.beginCall p xs).status = s.status := rfl
@[simp] theorem State.beginCall_suspendEn (s : State) (p : LeftoverPolicy) (xs : List Int) : (s.beginCall p xs).suspendEn = s.suspendEn := rfl
@[simp] theorem State.beginCall_fault (s : State) (p : LeftoverPolicy) (xs : List Int) : (s.beginCall p xs).fault = s.fault := rfl
@[simp] theorem State.beginCall_inq (s : State) (p : LeftoverPolicy) (xs : List Int) : (s.beginCall p xs).inq = admitInputs p s.inq xs := rfl
@[simp] theorem State.beginCall_out (s : State) (p : LeftoverPolicy) (xs : List Int) : (s.beginCall p xs).out = s.out := rfl
@[simp] theorem State.beginCall_outMark (s : State) (p : LeftoverPolicy) (xs : List Int) : (s.beginCall p xs).outMark = s.out.length := rfl

/-! ### construct -/

@[simp] theorem State.construct_mem (p : List Int) (b : Bool) : (State.construct p b).mem = Memory.ofCells 0 p := rfl
@[simp] theorem State.construct_ip (p : List Int) (b : Bool) : (State.construct p b).ip = 0 := rfl
@[simp] theorem State.construct_rb (p : List Int) (b : Bool) : (State.construct p b).rb = 0 := rfl
@[simp] theorem State.construct_status (p : List Int) (b : Bool) : (State.construct p b).status = .running := rfl
@[simp] theorem State.construct_suspendEn (p : List Int) (b : Bool) : (State.construct p b).suspendEn = b := rfl
@[simp] theorem State.construct_fault (p : List Int) (b : Bool) : (State.construct p b).fault = none := rfl
@[simp] theorem State.construct_inq (p : List Int) (b : Bool) : (State.construct p b).inq = [] := rfl
@[simp] theorem State.construct_out (p : List Int) (b : Bool) : (State.construct p b).out = [] := rfl
@[simp] theorem State.construct_outMark (p : List Int) (b : Bool) : (State.construct p b).outMark = 0 := rfl

/-- `State.reset` is Construct of the empty program with suspension enabled (log entry 4). -/
theorem State.reset_eq_construct : State.reset = State.construct [] true := rfl

end Sys2Proof.Machine
end

