-- ==== Sys2Proof/Laws/Exec.lean ====
section
/-!
SUPPORT. What each shared operation, each meaning and a step can do, said once: if it answers a next state,
then that state is one of these.
-/

namespace Sys2Proof.Machine

variable {s t : State}

/-- Fault entry or the effect, nothing else. -/
theorem settle_eq_next {r : Except Cause State} :
    settle s r = .next t ↔ r = .ok t ∨ ∃ F, r = .error F ∧ t = s.takeFault F := by
  cases r <;> simp [settle, eq_comm]

/-- The four ALU instructions: fault entry, or one store and the advance by 4. -/
theorem aluOp_cases {f : Int → Int → Int} {m1 m2 m3 : Mode} (h : aluOp f m1 m2 m3 s = .next t) :
    (∃ v1 v2 a3, operandsF3W s m1 m2 m3 = .ok (v1, v2, a3) ∧
      t = (s.store a3 (f v1 v2)).advance 3) ∨
    (∃ F, operandsF3W s m1 m2 m3 = .error F ∧ t = s.takeFault F) := by
  unfold aluOp at h
  rcases hops : operandsF3W s m1 m2 m3 with F | ⟨v1, v2, a3⟩
  · simp only [hops, settle_eq_next, reduceCtorEq, Except.error.injEq, false_or] at h
    obtain ⟨F', rfl, rfl⟩ := h
    exact .inr ⟨F, rfl, rfl⟩
  · simp only [hops, settle_eq_next, reduceCtorEq, Except.ok.injEq, false_and, exists_false,
      or_false] at h
    exact .inl ⟨v1, v2, a3, rfl, h.symm⟩

/-- INPUT at a resolved destination: suspended, exhausted, or one value consumed and stored. -/
theorem inputAt_cases {a1 : Nat} :
    (∃ v rest, s.inq = v :: rest ∧
      inputAt a1 s = .ok (((s.dropInput.store a1 v).setStatus .running).advance 1)) ∨
    (s.inq = [] ∧ s.suspendEn = true ∧ inputAt a1 s = .ok (s.setStatus .waitingForInput)) ∨
    (s.inq = [] ∧ s.suspendEn = false ∧ inputAt a1 s = .error .inputExhausted) := by
  unfold inputAt
  rcases hq : s.inq with _ | ⟨v, rest⟩
  · cases hs : s.suspendEn <;> simp
  · exact .inl ⟨v, rest, rfl, rfl⟩

/-- INPUT: a value stored, a suspension, an exhausted queue, or an unresolvable destination. -/
theorem execInput_cases {m1 : Mode} (h : execInput m1 s = .next t) :
    (∃ a1 v rest, operandF1W s m1 = .ok a1 ∧ s.inq = v :: rest ∧
      t = ((s.dropInput.store a1 v).setStatus .running).advance 1) ∨
    (∃ a1, operandF1W s m1 = .ok a1 ∧ s.inq = [] ∧ s.suspendEn = true ∧
      t = s.setStatus .waitingForInput) ∨
    (∃ a1, operandF1W s m1 = .ok a1 ∧ s.inq = [] ∧ s.suspendEn = false ∧
      t = s.takeFault .inputExhausted) ∨
    (∃ F, operandF1W s m1 = .error F ∧ t = s.takeFault F) := by
  unfold execInput at h
  rcases hops : operandF1W s m1 with F | a1
  · simp only [hops, settle_eq_next, reduceCtorEq, Except.error.injEq, false_or] at h
    obtain ⟨F', rfl, rfl⟩ := h
    exact .inr (.inr (.inr ⟨F, rfl, rfl⟩))
  · simp only [hops] at h
    obtain ⟨v, rest, hq, hi⟩ | ⟨hq, hs, hi⟩ | ⟨hq, hs, hi⟩ := inputAt_cases (s := s) (a1 := a1)
    · simp only [hi, settle_eq_next, Except.ok.injEq, reduceCtorEq, false_and, exists_false,
        or_false] at h
      exact .inl ⟨a1, v, rest, rfl, hq, h.symm⟩
    · simp only [hi, settle_eq_next, Except.ok.injEq, reduceCtorEq, false_and, exists_false,
        or_false] at h
      exact .inr (.inl ⟨a1, rfl, hq, hs, h.symm⟩)
    · simp only [hi, settle_eq_next, reduceCtorEq, Except.error.injEq, false_or] at h
      obtain ⟨F, rfl, rfl⟩ := h
      exact .inr (.inr (.inl ⟨a1, rfl, hq, hs, rfl⟩))

/-- OUTPUT: fault entry, or one value appended and the advance by 2. -/
theorem execOutput_cases {m1 : Mode} (h : execOutput m1 s = .next t) :
    (∃ v1, operandF1R s m1 = .ok v1 ∧ t = (s.emit v1).advance 1) ∨
    (∃ F, operandF1R s m1 = .error F ∧ t = s.takeFault F) := by
  unfold execOutput at h
  rcases hops : operandF1R s m1 with F | v1
  · simp only [hops, settle_eq_next, reduceCtorEq, Except.error.injEq, false_or] at h
    obtain ⟨F', rfl, rfl⟩ := h
    exact .inr ⟨F, rfl, rfl⟩
  · simp only [hops, settle_eq_next, reduceCtorEq, Except.ok.injEq, false_and, exists_false,
      or_false] at h
    exact .inl ⟨v1, rfl, h.symm⟩

/-- ADJUST_BASE: fault entry, or one addition to the base and the advance by 2. -/
theorem execAdjustBase_cases {m1 : Mode} (h : execAdjustBase m1 s = .next t) :
    (∃ v1, operandF1R s m1 = .ok v1 ∧ t = (s.addBase v1).advance 1) ∨
    (∃ F, operandF1R s m1 = .error F ∧ t = s.takeFault F) := by
  unfold execAdjustBase at h
  rcases hops : operandF1R s m1 with F | v1
  · simp only [hops, settle_eq_next, reduceCtorEq, Except.error.injEq, false_or] at h
    obtain ⟨F', rfl, rfl⟩ := h
    exact .inr ⟨F, rfl, rfl⟩
  · simp only [hops, settle_eq_next, reduceCtorEq, Except.ok.injEq, false_and, exists_false,
      or_false] at h
    exact .inl ⟨v1, rfl, h.symm⟩

/-- A conditional transfer: taken to an address, taken to no address, or not taken. -/
theorem jumpWhen_cases (taken : Bool) (v2 : Int) (s : State) :
    (∃ a : Nat, taken = true ∧ v2 = a ∧ jumpWhen taken v2 s = .ok (s.jumpTo a)) ∨
    (taken = true ∧ v2 < 0 ∧ jumpWhen taken v2 s = .error .negativeAddress) ∨
    (taken = false ∧ jumpWhen taken v2 s = .ok (s.advance 2)) := by
  cases taken
  · exact .inr (.inr ⟨rfl, rfl⟩)
  · rcases hv : toAddr v2 with F | a
    · obtain ⟨rfl, hlt⟩ := toAddr_eq_error.mp hv
      exact .inr (.inl ⟨rfl, hlt, by simp [jumpWhen, hv]⟩)
    · exact .inl ⟨a, rfl, toAddr_eq_ok.mp hv, by simp [jumpWhen, hv]⟩

/-- Both jumps, for `taken` the jump's condition on its first operand: `ip` alone changes, or fault entry. -/
theorem jump_cases {m1 m2 : Mode} {taken : Int → Bool}
    (h : settle s (match operandsF2R s m1 m2 with
      | .ok (v1, v2) => jumpWhen (taken v1) v2 s
      | .error F => .error F) = .next t) :
    (∃ v1 v2, operandsF2R s m1 m2 = .ok (v1, v2) ∧
      ((∃ a : Nat, taken v1 = true ∧ v2 = a ∧ t = s.jumpTo a) ∨
       (taken v1 = true ∧ v2 < 0 ∧ t = s.takeFault .negativeAddress) ∨
       (taken v1 = false ∧ t = s.advance 2))) ∨
    (∃ F, operandsF2R s m1 m2 = .error F ∧ t = s.takeFault F) := by
  rcases hops : operandsF2R s m1 m2 with F | ⟨v1, v2⟩
  · simp only [hops, settle_eq_next, reduceCtorEq, Except.error.injEq, false_or] at h
    obtain ⟨F', rfl, rfl⟩ := h
    exact .inr ⟨F, rfl, rfl⟩
  · simp only [hops] at h
    refine .inl ⟨v1, v2, rfl, ?_⟩
    obtain ⟨a, ht, ha, hj⟩ | ⟨ht, hlt, hj⟩ | ⟨ht, hj⟩ := jumpWhen_cases (taken v1) v2 s
    · simp only [hj, settle_eq_next, Except.ok.injEq, reduceCtorEq, false_and, exists_false,
        or_false] at h
      exact .inl ⟨a, ht, ha, h.symm⟩
    · simp only [hj, settle_eq_next, reduceCtorEq, Except.error.injEq, false_or] at h
      obtain ⟨F, rfl, rfl⟩ := h
      exact .inr (.inl ⟨ht, hlt, rfl⟩)
    · simp only [hj, settle_eq_next, Except.ok.injEq, reduceCtorEq, false_and, exists_false,
        or_false] at h
      exact .inr (.inr ⟨ht, h.symm⟩)

/-! ### Every instruction at once -/

/-- What a completed instruction can have done to the state. -/
inductive Effect (i : Instr) (s : State) : State → Prop where
  /-- ADD, MULTIPLY, LESS_THAN, EQUALS. -/
  | stored (a : Nat) (v : Int) :
      (∀ m, i ≠ .input m) → (∀ m, i ≠ .output m) → (∀ m, i ≠ .adjustBase m) → i ≠ .halt →
      Effect i s ((s.store a v).advance 3)
  /-- INPUT with input available. -/
  | consumed (m : Mode) (a : Nat) (v : Int) (rest : List Int) :
      i = .input m → operandF1W s m = .ok a → s.inq = v :: rest →
      Effect i s (((s.dropInput.store a v).setStatus .running).advance 1)
  /-- INPUT that suspends. -/
  | suspended (m : Mode) (a : Nat) :
      i = .input m → operandF1W s m = .ok a → s.inq = [] → s.suspendEn = true →
      Effect i s (s.setStatus .waitingForInput)
  /-- INPUT that may not suspend. -/
  | exhausted (m : Mode) (a : Nat) :
      i = .input m → operandF1W s m = .ok a → s.inq = [] → s.suspendEn = false →
      Effect i s (s.takeFault .inputExhausted)
  /-- OUTPUT. -/
  | emitted (m : Mode) (v : Int) :
      i = .output m → operandF1R s m = .ok v → Effect i s ((s.emit v).advance 1)
  /-- ADJUST_BASE. -/
  | rebased (m : Mode) (v : Int) :
      i = .adjustBase m → operandF1R s m = .ok v → Effect i s ((s.addBase v).advance 1)
  /-- A taken jump. -/
  | jumped (a : Nat) :
      (∀ m, i ≠ .input m) → (∀ m, i ≠ .output m) → (∀ m, i ≠ .adjustBase m) → i ≠ .halt →
      Effect i s (s.jumpTo a)
  /-- A jump not taken. -/
  | passed :
      (∀ m, i ≠ .input m) → (∀ m, i ≠ .output m) → (∀ m, i ≠ .adjustBase m) → i ≠ .halt →
      Effect i s (s.advance 2)
  /-- HALT. -/
  | halted : i = .halt → Effect i s (s.setStatus .halted)
  /-- A parameter or a jump target that is no address; an ill-formed instruction's write parameter. -/
  | faulted (F : Cause) :
      i ≠ .halt → (F = .negativeAddress ∨ ¬ i.WellFormed) →
      (∀ m, i = .input m → operandF1W s m = .error F) → Effect i s (s.takeFault F)

/-- Where a write parameter raises a cause, its address is negative or its mode is not writable. -/
theorem resolveWrite_error {k : Nat} {m : Mode} {F : Cause} (h : resolveWrite s k m = .error F) :
    F = .negativeAddress ∨ m = .immediate := by
  by_cases hm : m = .immediate
  · exact .inr hm
  · rw [resolveWrite_of_ne hm] at h
    exact .inl (resolve_error h)

/-- The ALU instructions' effects; `hw` says which parameter well-formedness is about. -/
theorem aluOp_effect {i : Instr} {f : Int → Int → Int} {m1 m2 m3 : Mode}
    (h1 : ∀ m, i ≠ .input m) (h2 : ∀ m, i ≠ .output m) (h3 : ∀ m, i ≠ .adjustBase m)
    (h4 : i ≠ .halt) (hw : i.WellFormed ↔ m3 ≠ .immediate) (h : aluOp f m1 m2 m3 s = .next t) :
    Effect i s t := by
  obtain ⟨v1, v2, a3, -, rfl⟩ | ⟨F, he, rfl⟩ := aluOp_cases h
  · exact .stored _ _ h1 h2 h3 h4
  · refine .faulted F h4 ?_ (fun m hm => absurd hm (h1 m))
    rcases operandsF3W_error he with he | he | he
    · exact .inl (resolve_error he)
    · exact .inl (resolve_error he)
    · exact (resolveWrite_error he).imp id (fun hm hwf => hw.mp hwf hm)

/-- The jumps' effects. -/
theorem jump_effect {i : Instr} {m1 m2 : Mode} {taken : Int → Bool}
    (h1 : ∀ m, i ≠ .input m) (h2 : ∀ m, i ≠ .output m) (h3 : ∀ m, i ≠ .adjustBase m)
    (h4 : i ≠ .halt)
    (h : settle s (match operandsF2R s m1 m2 with
      | .ok (v1, v2) => jumpWhen (taken v1) v2 s
      | .error F => .error F) = .next t) : Effect i s t := by
  obtain ⟨v1, v2, -, ⟨a, -, -, rfl⟩ | ⟨-, -, rfl⟩ | ⟨-, rfl⟩⟩ | ⟨F, he, rfl⟩ := jump_cases h
  · exact .jumped a h1 h2 h3 h4
  · exact .faulted _ h4 (.inl rfl) (fun m hm => absurd hm (h1 m))
  · exact .passed h1 h2 h3 h4
  · refine .faulted F h4 (.inl ?_) (fun m hm => absurd hm (h1 m))
    rcases operandsF2R_error he with he | he <;> exact resolve_error he

/-- The next states `exec` can answer, for all instructions. -/
theorem exec_effect {i : Instr} (h : exec i s = .next t) : Effect i s t := by
  cases i with
  | add => exact aluOp_effect (by simp) (by simp) (by simp) (by simp) Iff.rfl h
  | multiply => exact aluOp_effect (by simp) (by simp) (by simp) (by simp) Iff.rfl h
  | lessThan => exact aluOp_effect (by simp) (by simp) (by simp) (by simp) Iff.rfl h
  | equals => exact aluOp_effect (by simp) (by simp) (by simp) (by simp) Iff.rfl h
  | input m =>
    obtain ⟨a1, v, rest, ho, hq, rfl⟩ | ⟨a1, ho, hq, hs, rfl⟩ | ⟨a1, ho, hq, hs, rfl⟩ |
      ⟨F, ho, rfl⟩ := execInput_cases h
    · exact .consumed m a1 v rest rfl ho hq
    · exact .suspended m a1 rfl ho hq hs
    · exact .exhausted m a1 rfl ho hq hs
    · refine .faulted F (by simp) ?_ (fun m' hm => by cases hm; exact ho)
      exact (resolveWrite_error ho).imp id (fun hm hwf => hwf hm)
  | output m =>
    obtain ⟨v, hv, rfl⟩ | ⟨F, he, rfl⟩ := execOutput_cases h
    · exact .emitted m v rfl hv
    · exact .faulted F (by simp) (.inl (resolve_error (operandF1R_eq_error.mp he))) (by simp)
  | adjustBase m =>
    obtain ⟨v, hv, rfl⟩ | ⟨F, he, rfl⟩ := execAdjustBase_cases h
    · exact .rebased m v rfl hv
    · exact .faulted F (by simp) (.inl (resolve_error (operandF1R_eq_error.mp he))) (by simp)
  | jumpIfTrue => exact jump_effect (by simp) (by simp) (by simp) (by simp) h
  | jumpIfFalse =>
    exact jump_effect (taken := fun v => !countsAsTrue v) (by simp) (by simp) (by simp) (by simp) h
  | halt => cases h; exact .halted rfl

/-- A step: it was enabled, and it ran the decoded instruction or took the decoder's fault. -/
theorem step_cases (h : step s = .next t) :
    s.fault = none ∧ s.status ≠ .halted ∧
      ((∃ i, decode s.fetchWord = .ok i ∧ exec i s = .next t) ∨
       (∃ F, decode s.fetchWord = .error F ∧ t = s.takeFault F)) := by
  unfold step cycle at h
  split at h
  · cases h
  · next hf =>
    split at h
    · cases h
    · next hh =>
      refine ⟨not_not.mp hf, hh, ?_⟩
      rcases hd : decode s.fetchWord with F | i
      · simp only [hd, Host.Outcome.next.injEq] at h
        exact .inr ⟨F, rfl, h.symm⟩
      · simp only [hd] at h
        exact .inl ⟨i, rfl, h⟩

end Sys2Proof.Machine
end

