-- ==== Sys2Proof/Laws/Host.lean ====
section
/-!
SUPPORT. What a step's outcome says of the state after it, what Run can answer, and the one induction over
its loop.
-/

namespace Sys2Proof.Machine

/-- R83: the four outcomes, by the latch and the status of the state after the step. -/
theorem outcomeOf_cases (t : State) :
    (∃ F, t.fault = some F ∧ outcomeOf t = .fault F) ∨
    (t.fault = none ∧ t.status = .running ∧ outcomeOf t = .continues) ∨
    (t.fault = none ∧ t.status = .waitingForInput ∧ outcomeOf t = .suspended) ∨
    (t.fault = none ∧ t.status = .halted ∧ outcomeOf t = .halted) := by
  unfold outcomeOf
  cases hf : t.fault <;> cases hs : t.status <;> simp

/-- R162: the failure again, no outputs, or the loop from the start of a call. -/
theorem run_cases {policy : LeftoverPolicy} {fuel : Nat} {s t : State} {inputs : List Int}
    {r : RunResult} (h : run policy fuel s inputs = some (r, t)) :
    (∃ F, s.fault = some F ∧ r = .failure F ∧ t = s) ∨
    (s.fault = none ∧ s.status = .halted ∧ r = .ok [] ∧ t = s) ∨
    (s.fault = none ∧ s.status ≠ .halted ∧
      runLoop fuel (s.beginCall policy inputs) = some (r, t)) := by
  unfold run at h
  split at h
  · next F hf =>
    cases h
    exact .inl ⟨F, hf, rfl, rfl⟩
  · next hf =>
    split at h
    · next hs =>
      cases h
      exact .inr (.inl ⟨hf, hs, rfl, rfl⟩)
    · next hs => exact .inr (.inr ⟨hf, hs, h⟩)

/-- What every step relates and composition keeps, every returned loop relates. -/
theorem runLoop_induction {P : State → State → Prop} (one : ∀ s t, step s = .next t → P s t)
    (comp : ∀ s t u, P s t → P t u → P s u) {fuel : Nat} {s t : State} {r : RunResult}
    (h : runLoop fuel s = some (r, t)) : P s t := by
  induction fuel generalizing s with
  | zero => cases h
  | succ n ih =>
    unfold runLoop at h
    split at h
    · next u hu =>
      split at h
      · exact comp _ _ _ (one _ _ hu) (ih h)
      all_goals
        simp only [Option.some.injEq, Prod.mk.injEq] at h
        obtain ⟨-, rfl⟩ := h
        exact one _ _ hu
    · cases h
    · cases h

end Sys2Proof.Machine
end

