-- ==== Sys2Proof/Laws/Memory.lean ====
section
/-!
SUPPORT. The laws of memory: read after write (R31, R32), and that every operation keeps the canonical form.
-/

namespace Sys2Proof.Machine

@[simp] theorem Memory.read_nil (a : Nat) : Memory.read [] a = 0 := rfl

theorem Memory.read_cons (b : Nat) (v : Int) (m : Memory) (a : Nat) :
    Memory.read ((b, v) :: m) a = if b = a then v else m.read a := rfl

/-- A cell that no entry lists reads 0. -/
theorem Memory.read_of_not_mem (m : Memory) (a : Nat) (h : ∀ c ∈ m, c.1 ≠ a) : m.read a = 0 := by
  induction m with
  | nil => rfl
  | cons c m ih =>
    obtain ⟨b, v⟩ := c
    rw [read_cons, if_neg (h (b, v) (by simp)), ih (fun c hc => h c (by simp [hc]))]

/-- Reading through an append: the first part decides where it lists the cell. -/
theorem Memory.read_append (m n : Memory) (a : Nat) :
    Memory.read (m ++ n) a = if ∃ c ∈ m, c.1 = a then m.read a else n.read a := by
  induction m with
  | nil => simp
  | cons c m ih =>
    obtain ⟨b, v⟩ := c
    by_cases hb : b = a
    · simp [read_cons, hb]
    · have listed : (∃ c ∈ (b, v) :: m, c.1 = a) ↔ ∃ c ∈ m, c.1 = a := by
        simp only [List.mem_cons, exists_eq_or_imp, hb, false_or]
      rw [List.cons_append, read_cons, read_cons, if_neg hb, if_neg hb, ih]
      simp only [listed]

/-- A filter that keeps the entries of `a` keeps what `a` reads as. -/
theorem Memory.read_filter (p : Nat × Int → Bool) (m : Memory) (a : Nat)
    (h : ∀ v, p (a, v) = true) : Memory.read (m.filter p) a = m.read a := by
  induction m with
  | nil => rfl
  | cons c m ih =>
    obtain ⟨b, v⟩ := c
    by_cases hb : b = a
    · subst hb
      rw [List.filter_cons_of_pos (h v), read_cons, read_cons, if_pos rfl, if_pos rfl]
    · by_cases hp : p (b, v)
      · rw [List.filter_cons_of_pos hp, read_cons, read_cons, if_neg hb, if_neg hb, ih]
      · rw [List.filter_cons_of_neg hp, read_cons, if_neg hb, ih]

/-- R32: after a write, the cell written holds the value and every other cell what it held. -/
theorem Memory.read_write (m : Memory) (a b : Nat) (v : Int) :
    (m.write a v).read b = if b = a then v else m.read b := by
  have below : ¬ b < a → ¬ ∃ c ∈ m.filter (fun c => c.1 < a), c.1 = b := by
    rintro h ⟨c, hc, rfl⟩
    simp at hc
    omega
  unfold Memory.write
  rcases lt_trichotomy b a with h | rfl | h
  · rw [if_neg h.ne, List.append_assoc, read_append]
    split
    · exact read_filter _ _ _ (by simp [h])
    · next hno =>
      have rest : ∀ c ∈ (if v = 0 then ([] : Memory) else [(a, v)]) ++ m.filter (fun c => a < c.1),
          c.1 ≠ b := by
        intro c hc
        simp only [List.mem_append, List.mem_filter, decide_eq_true_eq] at hc
        rcases hc with hc | ⟨-, hc⟩
        · split at hc <;> simp at hc
          subst hc; exact h.ne'
        · omega
      rw [read_of_not_mem _ _ rest, read_of_not_mem]
      intro c hc hcb
      exact hno ⟨c, by simp [hc, hcb, h], hcb⟩
  · rw [if_pos rfl, List.append_assoc, read_append, if_neg (below (lt_irrefl b))]
    by_cases hv : v = 0
    · rw [if_pos hv, List.nil_append, hv, read_of_not_mem]
      intro c hc
      simp at hc
      omega
    · rw [if_neg hv, List.singleton_append, read_cons, if_pos rfl]
  · rw [if_neg h.ne', List.append_assoc, read_append, if_neg (below (by omega)), read_append,
      if_neg]
    · exact read_filter _ _ _ (by simp [h])
    · rintro ⟨c, hc, rfl⟩
      split at hc <;> simp at hc
      subst hc; exact lt_irrefl _ h

@[simp] theorem Memory.read_write_same (m : Memory) (a : Nat) (v : Int) :
    (m.write a v).read a = v := by
  rw [read_write, if_pos rfl]

theorem Memory.read_write_other (m : Memory) {a b : Nat} (v : Int) (h : b ≠ a) :
    (m.write a v).read b = m.read b := by
  rw [read_write, if_neg h]

/-! ### The canonical form -/

theorem Memory.wf_nil : Memory.wf [] := by simp [Memory.wf]

/-- `State.reset`'s memory is canonical. -/
theorem State.reset_mem_wf : State.reset.mem.wf := Memory.wf_nil

/-- Every write keeps the canonical form. -/
theorem Memory.write_wf {m : Memory} (h : m.wf) (a : Nat) (v : Int) : (m.write a v).wf := by
  obtain ⟨sorted, nonzero⟩ := h
  constructor
  · unfold Memory.write
    rw [List.append_assoc, List.pairwise_append, List.pairwise_append]
    refine ⟨sorted.filter _, ⟨?_, sorted.filter _, ?_⟩, ?_⟩
    · split <;> simp
    · intro c hc d hd
      split at hc <;> simp at hc
      subst hc
      simpa using (List.mem_filter.mp hd).2
    · intro c hc d hd
      have hca : c.1 < a := by simpa using (List.mem_filter.mp hc).2
      rcases List.mem_append.mp hd with hd | hd
      · split at hd <;> simp at hd
        subst hd; exact hca
      · have : a < d.1 := by simpa using (List.mem_filter.mp hd).2
        omega
  · intro c hc
    simp only [Memory.write, List.mem_append, List.mem_filter] at hc
    rcases hc with (⟨hc, -⟩ | hc) | ⟨hc, -⟩
    · exact nonzero c hc
    · split at hc <;> simp at hc
      next hv => subst hc; exact hv
    · exact nonzero c hc

/-- No entry of a loaded program lies below where it is loaded. -/
theorem Memory.ofCells_ge (vs : List Int) (a : Nat) : ∀ c ∈ Memory.ofCells a vs, a ≤ c.1 := by
  induction vs generalizing a with
  | nil => simp [Memory.ofCells]
  | cons v vs ih =>
    intro c hc
    unfold Memory.ofCells at hc
    split at hc
    · exact (Nat.le_succ a).trans (ih _ c hc)
    · rcases List.mem_cons.mp hc with rfl | hc
      · exact le_rfl
      · exact (Nat.le_succ a).trans (ih _ c hc)

/-- Loading a program gives the canonical form. -/
theorem Memory.ofCells_wf (vs : List Int) (a : Nat) : (Memory.ofCells a vs).wf := by
  induction vs generalizing a with
  | nil => exact Memory.wf_nil
  | cons v vs ih =>
    unfold Memory.ofCells
    split
    · exact ih _
    · next hv =>
      obtain ⟨sorted, nonzero⟩ := ih (a + 1)
      refine ⟨List.pairwise_cons.mpr ⟨fun c hc => ofCells_ge vs (a + 1) c hc, sorted⟩, ?_⟩
      intro c hc
      rcases List.mem_cons.mp hc with rfl | hc
      · exact hv
      · exact nonzero c hc

end Sys2Proof.Machine
end

