-- ==== Sys2Proof/Laws/PerInstr.lean ====
section
/-!
SUPPORT. Statements about every instruction as syntax, one lemma per constructor.
Family `EncodedWord`: the word of a well-formed instruction is non-negative, its two low digits are the
opcode (R52), and no digit stands above its last parameter's (R53, R59).
-/

namespace Sys2Proof.Laws

/-- The shape of an instruction's word. -/
def EncodedWord.Statement (i : Instr) : Prop :=
  i.WellFormed →
    0 ≤ encode i ∧ encode i % 100 = i.opcode ∧ encode i / 100 / 10 ^ i.params = 0

theorem EncodedWord.add (m1 m2 m3 : Mode) : EncodedWord.Statement (.add m1 m2 m3) := by
  intro _; cases m1 <;> cases m2 <;> cases m3 <;> decide

theorem EncodedWord.multiply (m1 m2 m3 : Mode) : EncodedWord.Statement (.multiply m1 m2 m3) := by
  intro _; cases m1 <;> cases m2 <;> cases m3 <;> decide

theorem EncodedWord.input (m1 : Mode) : EncodedWord.Statement (.input m1) := by
  intro _; cases m1 <;> decide

theorem EncodedWord.output (m1 : Mode) : EncodedWord.Statement (.output m1) := by
  intro _; cases m1 <;> decide

theorem EncodedWord.jumpIfTrue (m1 m2 : Mode) : EncodedWord.Statement (.jumpIfTrue m1 m2) := by
  intro _; cases m1 <;> cases m2 <;> decide

theorem EncodedWord.jumpIfFalse (m1 m2 : Mode) : EncodedWord.Statement (.jumpIfFalse m1 m2) := by
  intro _; cases m1 <;> cases m2 <;> decide

theorem EncodedWord.lessThan (m1 m2 m3 : Mode) : EncodedWord.Statement (.lessThan m1 m2 m3) := by
  intro _; cases m1 <;> cases m2 <;> cases m3 <;> decide

theorem EncodedWord.equals (m1 m2 m3 : Mode) : EncodedWord.Statement (.equals m1 m2 m3) := by
  intro _; cases m1 <;> cases m2 <;> cases m3 <;> decide

theorem EncodedWord.adjustBase (m1 : Mode) : EncodedWord.Statement (.adjustBase m1) := by
  intro _; cases m1 <;> decide

theorem EncodedWord.halt : EncodedWord.Statement .halt := by
  intro _; decide

end Sys2Proof.Laws
end

