-- ==== Sys2Proof/Tests/Slice0.lean ====
section
/-!
SUPPORT. The model's own tests: the well-formedness smoke test, one word per instruction decoded, one or two
single steps per instruction with results from 95_test_vectors.md, and for every statement with hypotheses
a named witness that meets them.
-/

namespace Sys2Proof.Tests

open Sys2Proof.Machine

/-- A machine with a program, at an instruction, with a relative base and inputs. -/
def machine (program : List Int) (rb : Int := 0) (inq : List Int := []) (suspendEn : Bool := true)
    (ip : Nat := 0) : State :=
  { State.construct program suspendEn with rb := rb, inq := inq, ip := ip }

/-- The outcome is a next state with the property. -/
def nextIs (o : Host.Outcome State Fault Refusal) (p : State → Bool) : Bool :=
  match o with
  | .next t => p t
  | .fault _ => false
  | .refused _ => false

/-- The outcome is the given fault of the host's interface. -/
def faultIs (o : Host.Outcome State Fault Refusal) (f : Fault) : Bool :=
  match o with
  | .next _ => false
  | .fault g => decide (g = f)
  | .refused _ => false

/-! ### Well-formedness: one ill-formed term for each check (R56, R60) -/

theorem test_illformed_add : ¬ (Instr.add .position .position .immediate).WellFormed := by decide
theorem test_illformed_multiply : ¬ (Instr.multiply .relative .position .immediate).WellFormed := by
  decide
theorem test_illformed_input : ¬ (Instr.input .immediate).WellFormed := by decide
theorem test_illformed_lessThan : ¬ (Instr.lessThan .position .position .immediate).WellFormed := by
  decide
theorem test_illformed_equals : ¬ (Instr.equals .position .position .immediate).WellFormed := by
  decide
theorem test_wellformed_reads : (Instr.jumpIfTrue .immediate .immediate).WellFormed := by decide

/-! ### Decoding: words written out digit by digit from the layout of R51 and the table of R55 -/

theorem test_decode_add :
    decode (2 * 10000 + 1 * 1000 + 0 * 100 + 1) = .ok (.add .position .immediate .relative) := by
  decide
theorem test_decode_multiply :
    decode (0 * 10000 + 1 * 1000 + 0 * 100 + 2) = .ok (.multiply .position .immediate .position) := by
  decide
theorem test_decode_input : decode (2 * 100 + 3) = .ok (.input .relative) := by decide
theorem test_decode_output : decode (1 * 100 + 4) = .ok (.output .immediate) := by decide
theorem test_decode_jumpIfTrue :
    decode (1 * 1000 + 2 * 100 + 5) = .ok (.jumpIfTrue .relative .immediate) := by decide
theorem test_decode_jumpIfFalse :
    decode (2 * 1000 + 0 * 100 + 6) = .ok (.jumpIfFalse .position .relative) := by decide
theorem test_decode_lessThan :
    decode (2 * 10000 + 0 * 1000 + 1 * 100 + 7) = .ok (.lessThan .immediate .position .relative) := by
  decide
theorem test_decode_equals :
    decode (0 * 10000 + 2 * 1000 + 1 * 100 + 8) = .ok (.equals .immediate .relative .position) := by
  decide
theorem test_decode_adjustBase : decode (1 * 100 + 9) = .ok (.adjustBase .immediate) := by decide
theorem test_decode_halt : decode 99 = .ok .halt := by decide

/-- R57, R135: the order of the decode checks (DV-D). -/
theorem test_decode_priority :
    decode 110002 = .error .invalidModes ∧ decode 11111100 = .error .unknownOpcode ∧
      decode 11101 = .error .writeImmediate ∧ decode (-1) = .error .unknownOpcode := by decide
/-- DV-D: leftover digits and digits above 2. -/
theorem test_decode_invalidModes :
    decode 199 = .error .invalidModes ∧ decode 1004 = .error .invalidModes ∧
      decode 304 = .error .invalidModes ∧ decode 31002 = .error .invalidModes ∧
      decode 100002 = .error .invalidModes ∧ decode 10005 = .error .invalidModes := by decide
/-- The host's view of the table, and the instruction it places, as the first after reset. -/
theorem test_decodeTableWord : decodeTableWord 8 4 = some (.output .position) := by decide
theorem test_withFetchWord :
    nextIs (step (State.reset.withFetchWord 8 4)) (fun t => t.out = [4]) = true := by decide
theorem test_withFetchWord_wide :
    nextIs (step (State.reset.withFetchWord 16 1105)) (fun t => t.ip = 3) = true := by decide

/-! ### Single steps (95_test_vectors.md) -/

/-- V2: the source is also the destination, and the instruction itself. -/
theorem test_add_over_itself :
    nextIs (step (machine [1, 0, 0, 0, 99])) (fun t => t.mem = [(0, 2), (4, 99)] ∧ t.ip = 4) = true := by
  decide
/-- DV-A: 2^64 + 2^64, no wrap. -/
theorem test_add_does_not_wrap :
    nextIs (step (machine [1101, 18446744073709551616, 18446744073709551616, 5, 99]))
      (fun t => t.mem.read 5 = 36893488147419103232) = true := by decide
/-- V2. -/
theorem test_multiply :
    nextIs (step (machine [2, 3, 0, 3, 99])) (fun t => t.mem.read 3 = 6 ∧ t.ip = 4) = true := by decide
/-- DV-A: the sign rule. -/
theorem test_multiply_signs :
    nextIs (step (machine [1102, -3, 7, 5, 99])) (fun t => t.mem.read 5 = -21) = true := by decide
/-- DV-A: -1 < 0. -/
theorem test_lessThan :
    nextIs (step (machine [1107, -1, 0, 5, 99])) (fun t => t.mem.read 5 = 1) = true := by decide
/-- DV-A: not 0 < -1. -/
theorem test_lessThan_order :
    nextIs (step (machine [1107, 0, -1, 5, 99])) (fun t => t.mem.read 5 = 0) = true := by decide
/-- DV-A. -/
theorem test_equals :
    nextIs (step (machine [1108, -8, -8, 5, 99])) (fun t => t.mem.read 5 = 1) = true := by decide
/-- DV-A: overwrites its own first parameter. -/
theorem test_equals_differs :
    nextIs (step (machine [1108, 8, -8, 1, 99])) (fun t => t.mem.read 1 = 0 ∧ t.ip = 4) = true := by
  decide
/-- DV-IO: one value, the oldest. -/
theorem test_input :
    nextIs (step (machine [3, 3, 99] 0 [-42, 7]))
      (fun t => t.mem.read 3 = -42 ∧ t.inq = [7] ∧ t.ip = 2) = true := by decide
/-- DV-R: the destination is resolved before the queue is examined. -/
theorem test_input_negative_destination :
    nextIs (step (machine [3, -1, 99])) (fun t => t.fault = some .negativeAddress) = true := by decide
/-- DV-R: a Relative read. -/
theorem test_output :
    nextIs (step (machine [204, -1, 55] 3)) (fun t => t.out = [55] ∧ t.ip = 2) = true := by decide
/-- DV-R: a never-written cell. -/
theorem test_output_unwritten :
    nextIs (step (machine [4, 1000])) (fun t => t.out = [0]) = true := by decide
/-- DV-J: a negative condition counts as true. -/
theorem test_jumpIfTrue : nextIs (step (machine [1105, -7, 9])) (fun t => t.ip = 9) = true := by decide
/-- DV-J: a taken jump to a negative target. -/
theorem test_jumpIfTrue_negative :
    nextIs (step (machine [1105, 1, -1]))
      (fun t => t.ip = 0 ∧ t.fault = some .negativeAddress) = true := by decide
/-- DV-J: both operands Relative. -/
theorem test_jumpIfFalse :
    nextIs (step (machine [2206, 3, 4, 0, 0, 0, 12] 2)) (fun t => t.ip = 12) = true := by decide
/-- DV-J: not taken. -/
theorem test_jumpIfFalse_not_taken :
    nextIs (step (machine [1106, 5, 9])) (fun t => t.ip = 3) = true := by decide
/-- DV-B: the operand is read with the old base. -/
theorem test_adjustBase_old_base :
    nextIs (step (machine [209, 1, 0, 0, 0, 0, 30] 5)) (fun t => t.rb = 35 ∧ t.ip = 2) = true := by
  decide
/-- DV-B: the base may become negative. -/
theorem test_adjustBase_negative :
    nextIs (step (machine [109, -7] 3)) (fun t => t.rb = -4 ∧ t.fault = none) = true := by decide
/-- DV-B: `ip` stays. -/
theorem test_halt :
    nextIs (step (machine [99])) (fun t => t.status = .halted ∧ t.ip = 0) = true := by decide
/-- DV-F: the empty program. -/
theorem test_empty_program :
    nextIs (step (machine [])) (fun t => t.fault = some .unknownOpcode ∧ t.status = .running) = true := by
  decide
/-- R71: no step after a fault, none after a halt. -/
theorem test_no_step :
    faultIs (step ((machine [99]).takeFault .unknownOpcode)) .stepAfterFault = true ∧
      faultIs (step ((machine [99]).setStatus .halted)) .stepAfterHalt = true := by decide
/-- V7: the first call suspends at the INPUT. -/
theorem test_run_suspends :
    (run .persist 1 (machine [3, 0, 99]) []).map (fun x => (x.1, x.2.ip, x.2.status)) =
      some (.ok [], 0, .waitingForInput) := by decide
/-- R147: two phases, two assignments. -/
theorem test_phaseAssignments : phaseAssignments [8, 9] = [[8, 9], [9, 8]] := by decide

/-! ### Witnesses: for each statement, concrete data that meets its hypotheses -/

theorem witness_DecodeOfEncodeIsTheInstruction :
    (Instr.equals .immediate .immediate .relative).WellFormed := by decide
theorem witness_DecodeAcceptsOnlyEncodings : decode 22208 = .ok (.equals .relative .relative .relative) := by
  decide
theorem witness_InvalidModesExactly :
    ((1004 : Nat) % 100, 1) ∈ ([(4, 1)] : List (Nat × Nat)) ∧ 1004 / (100 * 10 ^ 1) ≠ 0 ∧
      ((304 : Nat) % 100, 1) ∈ ([(4, 1)] : List (Nat × Nat)) ∧ 3 ≤ digit 304 (1 + 1) := by decide
theorem witness_MemoriesThatReadAlikeAreEqual :
    Memory.wf [(0, 1), (7, -3)] ∧ ∀ a, Memory.read [(0, 1), (7, -3)] a = Memory.read [(0, 1), (7, -3)] a :=
  ⟨by decide, fun _ => rfl⟩
theorem witness_StepOnAZeroCellIsUnknownOpcode :
    Enabled (machine [1101, 1, 1, 0] 0 [] true 4) ∧
      (machine [1101, 1, 1, 0] 0 [] true 4).mem.read (machine [1101, 1, 1, 0] 0 [] true 4).ip = 0 := by
  decide
theorem witness_StepRunsTheDecodedInstruction_decoded :
    Enabled (machine [104, 7]) ∧ decode (machine [104, 7]).fetchWord = .ok (.output .immediate) := by
  decide
theorem witness_StepRunsTheDecodedInstruction_fault :
    Enabled (machine [11101, 1, 1, 0]) ∧
      decode (machine [11101, 1, 1, 0]).fetchWord = .error .writeImmediate := by decide
theorem witness_StepExistsExactlyWhenEnabled :
    Enabled (machine [99]) ∧ ((machine [99]).takeFault .inputExhausted).fault ≠ none ∧
      ((machine [99]).setStatus .halted).fault = none ∧
      ((machine [99]).setStatus .halted).status = .halted := by decide

/-- A machine waiting at an INPUT meets the invariants. -/
theorem waiting_consistent : Consistent ((machine [3, 3, 99]).setStatus .waitingForInput) :=
  ⟨by decide, by decide, by decide, by decide, fun _ => ⟨rfl, .position, 3, by decide, by decide⟩⟩
/-- A machine at a HALT meets them, and so does the machine that has halted there. -/
theorem at_halt_consistent : Consistent (machine [99]) :=
  ⟨by decide, by decide, by decide, by decide, fun h => absurd h (by decide)⟩
theorem halted_consistent : Consistent ((machine [99]).setStatus .halted) :=
  ⟨by decide, by decide, by decide, by decide, fun h => absurd h (by decide)⟩
/-- A faulted machine meets them. -/
theorem faulted_consistent : Consistent ((machine [0]).takeFault .unknownOpcode) :=
  ⟨by decide, by decide, by decide, by decide, fun h => absurd h (by decide)⟩
/-- A machine about to fault meets them. -/
theorem about_to_fault_consistent : Consistent (machine [0]) :=
  ⟨by decide, by decide, by decide, by decide, fun h => absurd h (by decide)⟩

theorem witness_StepExistsExactlyWhenEnabled_hold :
    Consistent ((machine [3, 3, 99]).setStatus .waitingForInput) ∧
      ((machine [3, 3, 99]).setStatus .waitingForInput).status = .waitingForInput ∧
      ((machine [3, 3, 99]).setStatus .waitingForInput).inq = [] :=
  ⟨waiting_consistent, rfl, rfl⟩
theorem witness_NegativeAddressExactly :
    resolve (machine [4, -1]) 1 .position = .error .negativeAddress ∧
      resolve (machine [204, -4] 3) 1 .relative = .error .negativeAddress ∧
      resolve (machine [204, -3] 3) 1 .relative = .ok 0 := by decide
theorem witness_UnresolvableParameterFaults_jump :
    (Instr.jumpIfTrue .immediate .position).WellFormed ∧
      (Instr.jumpIfTrue .immediate .position).modes[1]? = some .position ∧
      resolve (machine [105, 0, -1]) (1 + 1) .position = .error .negativeAddress := by decide
theorem witness_UnresolvableParameterFaults_input :
    (Instr.input .relative).WellFormed ∧ (Instr.input .relative).modes[0]? = some .relative ∧
      resolve (machine [203, -1, 99]) (0 + 1) .relative = .error .negativeAddress := by decide
/-- For AddStoresTheExactSum, MultiplyStoresTheExactProduct, LessThanStoresOneOrZero, EqualsStoresOneOrZero:
the state of R86, whose destination is a source too. -/
theorem witness_AluResults :
    resolve (machine [0, 0, 0, 0, 21001, 9, -4, 2, 0, 30] 7 [] true 4) 1 .position = .ok 9 ∧
      resolve (machine [0, 0, 0, 0, 21001, 9, -4, 2, 0, 30] 7 [] true 4) 2 .immediate = .ok 6 ∧
      resolveWrite (machine [0, 0, 0, 0, 21001, 9, -4, 2, 0, 30] 7 [] true 4) 3 .relative = .ok 9 := by
  decide
theorem witness_StoreIsSeenByTheNextFetch_alu :
    resolve (machine [1101, 50, 49, 4, 0]) 1 .immediate = .ok 1 ∧
      resolve (machine [1101, 50, 49, 4, 0]) 2 .immediate = .ok 2 ∧
      resolveWrite (machine [1101, 50, 49, 4, 0]) 3 .position = .ok 4 ∧
      4 = (machine [1101, 50, 49, 4, 0]).ip + 4 := by decide
theorem witness_StoreIsSeenByTheNextFetch_input :
    operandF1W (machine [3, 2, 0] 0 [99]) .position = .ok 2 ∧
      (machine [3, 2, 0] 0 [99]).inq = 99 :: [] ∧ 2 = (machine [3, 2, 0] 0 [99]).ip + 2 := by decide
theorem witness_InputStoresTheHeadOrWaits_value :
    operandF1W (machine [203, 5, 99] 2 [9]) .relative = .ok 7 ∧
      (machine [203, 5, 99] 2 [9]).inq = 9 :: [] := by decide
theorem witness_InputStoresTheHeadOrWaits_suspends :
    operandF1W (machine [3, 0, 99]) .position = .ok 0 ∧ (machine [3, 0, 99]).inq = [] ∧
      (machine [3, 0, 99]).suspendEn = true := by decide
theorem witness_InputStoresTheHeadOrWaits_exhausted :
    operandF1W (machine [3, 0, 99] 0 [] false) .position = .ok 0 ∧
      (machine [3, 0, 99] 0 [] false).inq = [] ∧
      (machine [3, 0, 99] 0 [] false).suspendEn = false := by decide
theorem witness_InputStoresTheHeadOrWaits_faults :
    (0 : Int) ≤ 1003 ∧ (1003 : Int) % 100 = 3 ∧ (1003 : Int) ∉ ([3, 103, 203] : List Int) ∧
      Mode.position ≠ .immediate ∧
      operandF1W (machine [3, -1]) .position = .error .negativeAddress := by decide
theorem witness_OutputAppendsItsOperand : resolve (machine [4, 0]) 1 .position = .ok 0 := by decide
theorem witness_OutputAppendsItsOperand_faults :
    (0 : Int) ≤ 304 ∧ (304 : Int) % 100 = 4 ∧ (304 : Int) ∉ ([4, 104, 204] : List Int) ∧
      resolve (machine [4, -1]) 1 .position = .error .negativeAddress := by decide
theorem witness_AdjustBaseAddsToTheRelativeBase :
    resolve (machine [209, 1] 5) 1 .relative = .ok 6 := by decide
theorem witness_AdjustBaseAddsToTheRelativeBase_faults :
    (0 : Int) ≤ 1009 ∧ (1009 : Int) % 100 = 9 ∧ (1009 : Int) ∉ ([9, 109, 209] : List Int) ∧
      resolve (machine [209, -6] 5) 1 .relative = .error .negativeAddress := by decide
/-- For JumpIfTrueGoesToItsTarget (taken, to the smallest target) and JumpIfFalseGoesToItsTarget (not taken). -/
theorem witness_JumpGoesToItsTarget_taken :
    resolve (machine [1105, -1, 0]) 1 .immediate = .ok 1 ∧
      resolve (machine [1105, -1, 0]) 2 .immediate = .ok 2 ∧
      (machine [1105, -1, 0]).mem.read 1 ≠ 0 ∧
      (machine [1105, -1, 0]).mem.read 2 = ((0 : Nat) : Int) := by decide
/-- For JumpIfFalseGoesToItsTarget (taken) and JumpIfTrueGoesToItsTarget (not taken). -/
theorem witness_JumpGoesToItsTarget_zero :
    resolve (machine [1106, 0, 9]) 1 .immediate = .ok 1 ∧
      resolve (machine [1106, 0, 9]) 2 .immediate = .ok 2 ∧
      (machine [1106, 0, 9]).mem.read 1 = 0 ∧
      (machine [1106, 0, 9]).mem.read 2 = ((9 : Nat) : Int) := by decide
theorem witness_JumpGoesToItsTarget_negative :
    resolve (machine [1105, 1, -1]) 1 .immediate = .ok 1 ∧
      resolve (machine [1105, 1, -1]) 2 .immediate = .ok 2 ∧
      (machine [1105, 1, -1]).mem.read 1 ≠ 0 ∧ (machine [1105, 1, -1]).mem.read 2 < 0 := by decide
theorem witness_JumpGoesToItsTarget_zero_negative :
    resolve (machine [1106, 0, -1]) 1 .immediate = .ok 1 ∧
      resolve (machine [1106, 0, -1]) 2 .immediate = .ok 2 ∧
      (machine [1106, 0, -1]).mem.read 1 = 0 ∧ (machine [1106, 0, -1]).mem.read 2 < 0 := by decide
theorem witness_HaltChangesOnlyTheStatus :
    (0 : Int) ≤ 199 ∧ (199 : Int) % 100 = 99 ∧ (199 : Int) ≠ 99 ∧ (machine [99]).fault = none := by decide

theorem witness_AluFrame :
    Instr.add .position .position .position ∈ [Instr.add .position .position .position] ∧
      exec (.add .position .position .position) (machine [1, 0, 0, 0, 99]) =
        .next (((machine [1, 0, 0, 0, 99]).store 0 2).advance 3) := ⟨by decide, rfl⟩
theorem witness_InputFrame :
    exec (.input .position) (machine [3, 3, 99] 0 [5]) =
      .next ((((machine [3, 3, 99] 0 [5]).dropInput.store 3 5).setStatus .running).advance 1) := rfl
theorem witness_InputFrame_empty :
    (machine [3, 3, 99]).inq = [] ∧ exec (.input .position) (machine [3, 3, 99]) =
      .next ((machine [3, 3, 99]).setStatus .waitingForInput) := ⟨rfl, rfl⟩
theorem witness_NonStoringFrame :
    exec (.output .immediate) (machine [104, 7]) = .next (((machine [104, 7]).emit 7).advance 1) ∧
      exec .halt (machine [99]) = .next ((machine [99]).setStatus .halted) := ⟨rfl, rfl⟩
theorem witness_OnlyAdjustBaseChangesTheRelativeBase :
    step (machine [109, 1]) = .next (((machine [109, 1]).addBase 1).advance 1) ∧
      (((machine [109, 1]).addBase 1).advance 1).rb ≠ (machine [109, 1]).rb := ⟨rfl, by decide⟩
/-- For every statement about `step s = .next t` alone: OUTPUT, INPUT. -/
theorem witness_OutputIsAppendOnly :
    step (machine [104, 7]) = .next (((machine [104, 7]).emit 7).advance 1) := rfl
theorem witness_OnlyInputConsumesTheQueue :
    step (machine [3, 3, 99] 0 [5]) =
      .next ((((machine [3, 3, 99] 0 [5]).dropInput.store 3 5).setStatus .running).advance 1) := rfl
theorem witness_SuspendFlagNeverChanges :
    run .persist 1 (machine [99]) [] = some (.ok [], (machine [99]).setStatus .halted) := by decide
theorem witness_FaultEntryChangesOnlyTheLatch :
    step (machine [0]) = .next ((machine [0]).takeFault .unknownOpcode) ∧
      ((machine [0]).takeFault .unknownOpcode).fault = some .unknownOpcode := ⟨rfl, rfl⟩
theorem witness_WhichInstructionRaisesWhichCause :
    (Instr.input .position).WellFormed ∧ (machine [3, 0] 0 [] false).fault = none ∧
      exec (.input .position) (machine [3, 0] 0 [] false) =
        .next ((machine [3, 0] 0 [] false).takeFault .inputExhausted) := ⟨by decide, rfl, rfl⟩
theorem witness_OnlyARunningMachineFaults :
    Consistent (machine [0]) ∧ step (machine [0]) = .next ((machine [0]).takeFault .unknownOpcode) ∧
      ((machine [0]).takeFault .unknownOpcode).fault ≠ none :=
  ⟨about_to_fault_consistent, rfl, by decide⟩
/-- For StatusTransitions, StepEndsInOneOfFourWays and EveryStepKeepsConsistent: a halting step and a hold. -/
theorem witness_EveryStepKeepsConsistent_halt :
    Consistent (machine [99]) ∧ step (machine [99]) = .next ((machine [99]).setStatus .halted) :=
  ⟨at_halt_consistent, rfl⟩
theorem witness_EveryStepKeepsConsistent_hold :
    Consistent ((machine [3, 3, 99]).setStatus .waitingForInput) ∧
      step ((machine [3, 3, 99]).setStatus .waitingForInput) =
        .next ((machine [3, 3, 99]).setStatus .waitingForInput) := ⟨waiting_consistent, rfl⟩
theorem witness_StatusTransitions_resume :
    ((machine [3, 3, 99] 0 [5]).setStatus .waitingForInput).status = .waitingForInput ∧
      ((machine [3, 3, 99] 0 [5]).setStatus .waitingForInput).inq ≠ [] ∧
      Consistent ((machine [3, 3, 99] 0 [5]).setStatus .waitingForInput) :=
  ⟨rfl, by decide, by decide, by decide, by decide, by decide,
    fun _ => ⟨rfl, .position, 3, by decide, by decide⟩⟩
/-- In a call that began with the input 5. -/
theorem reachable_in_call :
    Reachable .inCall ((State.construct [99] true).beginCall .persist [5]) :=
  .move .betweenCalls _ (State.construct [99] true) _ (.construct [99] true)
    (.beginCall _ .persist [5] (by decide))
theorem witness_ReachableStatesAreConsistent :
    Reachable .betweenCalls (((State.construct [99] true).beginCall .persist [5]).setStatus .halted) :=
  .move .inCall _ _ _ reachable_in_call (.callReturns _ _ rfl (by decide))
/-- For RunKeepsIdle. -/
theorem witness_RunKeepsIdle :
    Idle (machine [99]) ∧
      run .persist 1 (machine [99]) [4] =
        some (.ok [], ((machine [99]).beginCall .persist [4]).setStatus .halted) :=
  ⟨⟨at_halt_consistent, fun _ => rfl⟩, by decide⟩
theorem witness_LeftoverPolicyHasNoEffect : Idle (machine [99]) := ⟨at_halt_consistent, fun _ => rfl⟩
theorem witness_RunOnAHaltedMachineIsANoOp : Finished ((machine [99]).setStatus .halted) := by decide
theorem witness_RunOnAFaultedMachineFailsAgain :
    ((machine [0]).takeFault .unknownOpcode).fault = some .unknownOpcode := rfl
theorem witness_RunReturnsTheOutputsOfTheCall :
    run .discard 2 (machine [104, 7, 99]) [] =
      some (.ok [7], (((machine [104, 7, 99]).emit 7).advance 1).setStatus .halted) := by decide
theorem witness_RunEndsSuspendedHaltedOrFailed :
    Consistent (machine [0]) ∧
      run .persist 1 (machine [0]) [] =
        some (.failure .unknownOpcode, (machine [0]).takeFault .unknownOpcode) :=
  ⟨about_to_fault_consistent, by decide⟩
theorem witness_RunEndsSuspendedHaltedOrFailed_suspended :
    Consistent ((machine [3, 3, 99]).setStatus .waitingForInput) ∧
      run .persist 1 ((machine [3, 3, 99]).setStatus .waitingForInput) [] =
        some (.ok [], (machine [3, 3, 99]).setStatus .waitingForInput) :=
  ⟨waiting_consistent, by decide⟩
theorem witness_MoreFuelDoesNotChangeARun :
    run .persist 1 (machine [99]) [] = some (.ok [], (machine [99]).setStatus .halted) := by decide
theorem witness_IsHaltedReportsTheStatus :
    isHalted ((machine [99]).setStatus .halted) = true ∧
      run .persist 0 ((machine [99]).setStatus .halted) [1] =
        some (.ok [], (machine [99]).setStatus .halted) ∧
      Consistent ((machine [0]).takeFault .unknownOpcode) :=
  ⟨by decide, by decide, faulted_consistent⟩
theorem witness_InstancesShareNothing :
    runInstance .persist 1 [machine [99], machine [0]] 0 [] =
      some (.ok [], [(machine [99]).setStatus .halted, machine [0]]) ∧
      run .persist 1 (machine [99]) [] = some (.ok [], (machine [99]).setStatus .halted) ∧
      (1 : Nat) ≠ 0 := by decide
/-- One machine that outputs its phase and halts: INPUT [9], OUTPUT [9], HALT. -/
theorem witness_MaxSignalIsTheMaximum :
    maxSignal .persist 3 0 [3, 9, 4, 9, 99] [6] = some 6 := by decide
theorem witness_RoundRefusesOtherThanOneOutput_none :
    runInstance .persist 1 [machine [99]] 0 ([] ++ [0]) =
      some (.ok [], [((machine [99]).beginCall .persist [0]).setStatus .halted]) ∧
      ([] : List Int).length ≠ 1 := by decide
theorem witness_RoundRefusesOtherThanOneOutput_fault :
    runInstance .persist 1 [machine [0]] 0 ([] ++ [0]) =
      some (.failure .unknownOpcode,
        [((machine [0]).beginCall .persist [0]).takeFault .unknownOpcode]) := by decide
theorem witness_RoundRefusesOtherThanOneOutput_one :
    runInstance .persist 2 [machine [104, 7, 99]] 0 ([] ++ [0]) =
      some (.ok [7],
        [((((machine [104, 7, 99]).beginCall .persist [0]).emit 7).advance 1).setStatus .halted]) := by
  decide
theorem witness_RunAdmitsItsInputs :
    Enabled (machine [99] 0 [4]) ∧ Enabled (machine [99]) ∧ Idle (machine [99]) :=
  ⟨by decide, by decide, at_halt_consistent, fun _ => rfl⟩
theorem witness_RunLoopTakesEachExit_continues :
    step (machine [104, 7]) = .next (((machine [104, 7]).emit 7).advance 1) ∧
      outcomeOf (((machine [104, 7]).emit 7).advance 1) = .continues := ⟨rfl, rfl⟩
theorem witness_RunLoopTakesEachExit_suspended :
    step (machine [3, 3, 99]) = .next ((machine [3, 3, 99]).setStatus .waitingForInput) ∧
      outcomeOf ((machine [3, 3, 99]).setStatus .waitingForInput) = .suspended := ⟨rfl, rfl⟩
theorem witness_RunLoopTakesEachExit_halted :
    step (machine [99]) = .next ((machine [99]).setStatus .halted) ∧
      outcomeOf ((machine [99]).setStatus .halted) = .halted := ⟨rfl, rfl⟩
theorem witness_RunLoopTakesEachExit_fault :
    step (machine [0]) = .next ((machine [0]).takeFault .unknownOpcode) ∧
      outcomeOf ((machine [0]).takeFault .unknownOpcode) = .fault .unknownOpcode := ⟨rfl, rfl⟩
theorem witness_RunLeadsToReachableStates :
    Reachable .betweenCalls (State.construct [99] true) ∧
      run .persist 1 (State.construct [99] true) [5] =
        some (.ok [], ((State.construct [99] true).beginCall .persist [5]).setStatus .halted) :=
  ⟨.construct [99] true, by decide⟩
theorem witness_HostMovesOnlyBetweenCalls_inCall :
    Transition .inCall (machine [104, 7]) .inCall (((machine [104, 7]).emit 7).advance 1) ∧
      Transition .inCall (machine [99]) .betweenCalls ((machine [99]).setStatus .halted) :=
  ⟨.callContinues _ _ rfl rfl, .callReturns _ _ rfl (by decide)⟩
theorem witness_HostMovesOnlyBetweenCalls_betweenCalls :
    Transition .betweenCalls (machine [99]) .inCall ((machine [99]).beginCall .discard [1]) ∧
      Transition .betweenCalls ((machine [99]).setStatus .halted) .betweenCalls
        ((machine [99]).setStatus .halted) ∧
      Transition .betweenCalls (machine [99]) .betweenCalls ((machine [99]).setStatus .halted) :=
  ⟨.beginCall _ .discard [1] (by decide), .noOpCall _ (by decide), .singleStep _ _ rfl⟩

end Sys2Proof.Tests
end

section
/-!
PROOFS. Which words the decoder refuses, and by which cause (R59, R60): first each format's answer, then the
opcode's, then the word's.
-/

namespace Sys2Proof

/-! ### The fields of a word -/

/-- R53: parameter `k`'s mode digit in the word without its opcode is the word's digit `k + 1`. -/
theorem modeAt_div_hundred (w : Nat) {k : Nat} (hk : 1 ≤ k) :
    modeAt (w / 100) k = modeOfDigit (digit w (k + 1)) := by
  obtain ⟨j, rfl⟩ := Nat.exists_eq_add_of_le' hk
  have weight : 100 * 10 ^ j = 10 ^ (j + 1 + 1) := by omega
  simp only [modeAt, modeDigit, digit, Nat.add_sub_cancel, Nat.div_div_eq_div_mul, weight]

/-- R53, R59: the digits above those of `n` parameters, in the whole word. -/
theorem leftover_div_hundred (w n : Nat) : leftover (w / 100) n = w / (100 * 10 ^ n) :=
  Nat.div_div_eq_div_mul w 100 (10 ^ n)

/-- R54: the digits that name a mode. -/
theorem modeOfDigit_ne_none {d : Nat} : modeOfDigit d ≠ none ↔ d ≤ 2 := by
  rw [Ne, modeOfDigit_eq_none]
  omega

/-! ### InvalidModes (R59) -/

/-- R59: the two defects for which `q`, the word without its opcode, has no modes for `n` parameters. -/
def HasInvalidModes (q n : Nat) : Prop :=
  leftover q n ≠ 0 ∨ ∃ k, 1 ≤ k ∧ k ≤ n ∧ modeAt q k = none

/-- A parameter among the first `n + 1` is among the first `n` or is the last. -/
theorem exists_param_succ {P : Nat → Prop} {n : Nat} :
    (∃ k, 1 ≤ k ∧ k ≤ n + 1 ∧ P k) ↔ (∃ k, 1 ≤ k ∧ k ≤ n ∧ P k) ∨ P (n + 1) := by
  constructor
  · rintro ⟨k, hk1, hkn, hP⟩
    rcases Nat.le_succ_iff.mp hkn with hle | rfl
    · exact .inl ⟨k, hk1, hle, hP⟩
    · exact .inr hP
  · rintro (⟨k, hk1, hkn, hP⟩ | hP)
    · exact ⟨k, hk1, by omega, hP⟩
    · exact ⟨n + 1, by omega, by omega, hP⟩

theorem not_exists_param_zero {P : Nat → Prop} : ¬ ∃ k, 1 ≤ k ∧ k ≤ 0 ∧ P k := by
  rintro ⟨k, hk1, hk0, -⟩
  omega

theorem hasInvalidModes_zero {q : Nat} : HasInvalidModes q 0 ↔ leftover q 0 ≠ 0 := by
  simp only [HasInvalidModes, not_exists_param_zero, or_false]

theorem hasInvalidModes_one {q : Nat} :
    HasInvalidModes q 1 ↔ leftover q 1 ≠ 0 ∨ modeAt q 1 = none := by
  simp only [HasInvalidModes, exists_param_succ (n := 0), not_exists_param_zero, false_or, zero_add]

theorem hasInvalidModes_two {q : Nat} :
    HasInvalidModes q 2 ↔ leftover q 2 ≠ 0 ∨ modeAt q 1 = none ∨ modeAt q 2 = none := by
  simp only [HasInvalidModes, exists_param_succ (n := 1), exists_param_succ (n := 0),
    not_exists_param_zero, false_or, zero_add, Nat.reduceAdd]

theorem hasInvalidModes_three {q : Nat} :
    HasInvalidModes q 3 ↔
      leftover q 3 ≠ 0 ∨ (modeAt q 1 = none ∨ modeAt q 2 = none) ∨ modeAt q 3 = none := by
  simp only [HasInvalidModes, exists_param_succ (n := 2), exists_param_succ (n := 1),
    exists_param_succ (n := 0), not_exists_param_zero, false_or, zero_add, Nat.reduceAdd]

theorem decodeF0_eq_invalidModes {i : Instr} {q : Nat} :
    decodeF0 i q = .error .invalidModes ↔ HasInvalidModes q 0 := by
  rw [hasInvalidModes_zero]
  unfold decodeF0
  split <;> simp_all

theorem decodeF1R_eq_invalidModes {mk : Mode → Instr} {q : Nat} :
    decodeF1R mk q = .error .invalidModes ↔ HasInvalidModes q 1 := by
  rw [hasInvalidModes_one]
  unfold decodeF1R
  cases modeAt q 1 <;> split <;> simp_all

theorem decodeF1W_eq_invalidModes {mk : Mode → Instr} {q : Nat} :
    decodeF1W mk q = .error .invalidModes ↔ HasInvalidModes q 1 := by
  rw [hasInvalidModes_one]
  unfold decodeF1W
  rcases modeAt q 1 with _ | m1
  · simp
  · cases m1 <;> simp

theorem decodeF2R_eq_invalidModes {mk : Mode → Mode → Instr} {q : Nat} :
    decodeF2R mk q = .error .invalidModes ↔ HasInvalidModes q 2 := by
  rw [hasInvalidModes_two]
  unfold decodeF2R
  cases modeAt q 1 <;> cases modeAt q 2 <;> simp

theorem decodeF3W_eq_invalidModes {mk : Mode → Mode → Mode → Instr} {q : Nat} :
    decodeF3W mk q = .error .invalidModes ↔ HasInvalidModes q 3 := by
  rw [hasInvalidModes_three]
  unfold decodeF3W
  rcases modeAt q 3 with _ | m3
  · cases modeAt q 1 <;> cases modeAt q 2 <;> simp
  · cases modeAt q 1 <;> cases modeAt q 2 <;> cases m3 <;> simp

/-- R55, R59: an opcode of the table, with its parameter count, raises InvalidModes for those two defects
alone. -/
theorem decodeOp_eq_invalidModes {o n q : Nat}
    (h : (o, n) ∈ ([(1, 3), (2, 3), (3, 1), (4, 1), (5, 2), (6, 2), (7, 3), (8, 3), (9, 1),
      (99, 0)] : List (Nat × Nat))) :
    decodeOp o q = .error .invalidModes ↔ HasInvalidModes q n := by
  simp only [List.mem_cons, List.not_mem_nil, or_false, Prod.mk.injEq] at h
  rcases h with ⟨rfl, rfl⟩ | ⟨rfl, rfl⟩ | ⟨rfl, rfl⟩ | ⟨rfl, rfl⟩ | ⟨rfl, rfl⟩ | ⟨rfl, rfl⟩ |
    ⟨rfl, rfl⟩ | ⟨rfl, rfl⟩ | ⟨rfl, rfl⟩ | ⟨rfl, rfl⟩
  · exact decodeF3W_eq_invalidModes
  · exact decodeF3W_eq_invalidModes
  · exact decodeF1W_eq_invalidModes
  · exact decodeF1R_eq_invalidModes
  · exact decodeF2R_eq_invalidModes
  · exact decodeF2R_eq_invalidModes
  · exact decodeF3W_eq_invalidModes
  · exact decodeF3W_eq_invalidModes
  · exact decodeF1R_eq_invalidModes
  · exact decodeF0_eq_invalidModes

/-- The two defects in terms of the whole word's digits, as R59 states them. -/
theorem hasInvalidModes_div_hundred {w n : Nat} :
    HasInvalidModes (w / 100) n ↔
      w / (100 * 10 ^ n) ≠ 0 ∨ ∃ k, 1 ≤ k ∧ k ≤ n ∧ 3 ≤ digit w (k + 1) := by
  unfold HasInvalidModes
  rw [leftover_div_hundred]
  refine or_congr_right (exists_congr fun k => and_congr_right fun hk => ?_)
  rw [modeAt_div_hundred w hk, modeOfDigit_eq_none]

/-- Settles O6: every format refuses for the two defects of R59 alone, and the opcode selects the format. -/
theorem invalidModesExactly : Obligations.InvalidModesExactly := by
  intro w n hrow
  rw [decode_natCast, decodeOp_eq_invalidModes hrow, hasInvalidModes_div_hundred]

/-! ### WriteImmediate (R60) -/

theorem decodeF0_ne_writeImmediate {i : Instr} {q : Nat} :
    decodeF0 i q ≠ .error .writeImmediate := by
  unfold decodeF0
  split <;> simp

theorem decodeF1R_ne_writeImmediate {mk : Mode → Instr} {q : Nat} :
    decodeF1R mk q ≠ .error .writeImmediate := by
  unfold decodeF1R
  cases modeAt q 1 <;> split <;> simp

theorem decodeF2R_ne_writeImmediate {mk : Mode → Mode → Instr} {q : Nat} :
    decodeF2R mk q ≠ .error .writeImmediate := by
  unfold decodeF2R
  cases modeAt q 1 <;> cases modeAt q 2 <;> split <;> simp

/-- Format F1W raises WriteImmediate exactly where its mode is Immediate and nothing is left over. -/
theorem decodeF1W_eq_writeImmediate {mk : Mode → Instr} {q : Nat} :
    decodeF1W mk q = .error .writeImmediate ↔
      modeAt q 1 = some .immediate ∧ leftover q 1 = 0 := by
  unfold decodeF1W
  by_cases hleft : leftover q 1 = 0
  · rcases modeAt q 1 with _ | m1
    · simp [hleft]
    · cases m1 <;> simp [hleft]
  · simp [hleft]

/-- Format F3W raises WriteImmediate exactly where its third mode is Immediate, the other two are legal, and
nothing is left over. -/
theorem decodeF3W_eq_writeImmediate {mk : Mode → Mode → Mode → Instr} {q : Nat} :
    decodeF3W mk q = .error .writeImmediate ↔
      modeAt q 3 = some .immediate ∧ modeAt q 1 ≠ none ∧ modeAt q 2 ≠ none ∧ leftover q 3 = 0 := by
  unfold decodeF3W
  by_cases hleft : leftover q 3 = 0
  · rcases modeAt q 3 with _ | m3
    · cases modeAt q 1 <;> cases modeAt q 2 <;> simp [hleft]
    · cases modeAt q 1 <;> cases modeAt q 2 <;> cases m3 <;> simp [hleft]
  · simp [hleft]

/-- R55, R60: the opcodes that have a write parameter, each with its format's condition. -/
theorem decodeOp_eq_writeImmediate {o q : Nat} :
    decodeOp o q = .error .writeImmediate ↔
      (o ∈ ([1, 2, 7, 8] : List Nat) ∧ modeAt q 3 = some .immediate ∧ modeAt q 1 ≠ none ∧
        modeAt q 2 ≠ none ∧ leftover q 3 = 0) ∨
      (o = 3 ∧ modeAt q 1 = some .immediate ∧ leftover q 1 = 0) := by
  fun_cases decodeOp o q
  case case1 | case2 | case7 | case8 => simp [decodeF3W_eq_writeImmediate]
  case case3 => simp [decodeF1W_eq_writeImmediate]
  case case4 | case9 => simp [decodeF1R_ne_writeImmediate]
  case case5 | case6 => simp [decodeF2R_ne_writeImmediate]
  case case10 => simp [decodeF0_ne_writeImmediate]
  case case11 => simp_all

/-- R60 for a word that is a natural number, in terms of its digits. -/
theorem decode_natCast_eq_writeImmediate {u : Nat} :
    decode (u : Int) = .error .writeImmediate ↔
      (u % 100 ∈ ([1, 2, 7, 8] : List Nat) ∧ digit u 4 = 1 ∧ digit u 2 ≤ 2 ∧ digit u 3 ≤ 2 ∧
        u / 100000 = 0) ∨
      (u % 100 = 3 ∧ digit u 2 = 1 ∧ u / 1000 = 0) := by
  have mode1 := modeAt_div_hundred u (k := 1) (by decide)
  have mode2 := modeAt_div_hundred u (k := 2) (by decide)
  have mode3 := modeAt_div_hundred u (k := 3) (by decide)
  rw [decode_natCast, decodeOp_eq_writeImmediate, mode1, mode2, mode3]
  simp only [leftover_div_hundred, modeOfDigit_ne_none, modeOfDigit_eq_some, Mode.digit,
    Nat.reduceAdd, Nat.reducePow, Nat.reduceMul]

/-- Settles O7: a negative word is UnknownOpcode (R61); the others are `decode_natCast_eq_writeImmediate`. -/
theorem writeImmediateExactly : Obligations.WriteImmediateExactly := by
  intro w
  rcases lt_or_ge w 0 with hneg | hnonneg
  · have noNat (u : Nat) : w ≠ u := by omega
    simp [decode_of_neg hneg, noNat]
  · obtain ⟨u, rfl⟩ := Int.eq_ofNat_of_zero_le hnonneg
    simp [decode_natCast_eq_writeImmediate]

end Sys2Proof
end

section
/-!
PROOFS. What an enabled step is, for each answer of the decoder to the word at `ip` (R73).
-/

namespace Sys2Proof.Machine

variable {s : State} {i : Instr} {F : Cause}

/-- Neither guard of the cycle (R71) stops an enabled machine, and the decoded instruction is run as it is. -/
theorem step_of_decode_ok (h : Enabled s) (hdecode : decode s.fetchWord = .ok i) :
    step s = exec i s := by
  obtain ⟨noFault, notHalted⟩ := h
  simp only [step, cycle, noFault, notHalted, hdecode, ne_eq, not_true_eq_false, if_false]

/-- A decode failure of an enabled machine is fault entry, with no parameter resolved. -/
theorem step_of_decode_error (h : Enabled s) (hdecode : decode s.fetchWord = .error F) :
    step s = .next (s.takeFault F) := by
  obtain ⟨noFault, notHalted⟩ := h
  simp only [step, cycle, noFault, notHalted, hdecode, ne_eq, not_true_eq_false, if_false]

/-- Settles O11: an enabled step for each of the decoder's two answers; fault entry sets the latch alone. -/
theorem stepRunsTheDecodedInstruction : Obligations.StepRunsTheDecodedInstruction :=
  fun _ h => ⟨fun _ hdecode => step_of_decode_ok h hdecode,
    fun _ hdecode => step_of_decode_error h hdecode⟩

end Sys2Proof.Machine
end

section
/-!
PROOFS. Which word decodes to an instruction (R51, R52, R57): each format reads back the modes of its digits,
the opcode selects the format, so that the word is the instruction's encoding and no other.
-/

namespace Sys2Proof

/-- R51, R53: three legal mode digits with nothing above them are the number the modes encode to. -/
theorem modes_eq_three {q : Nat} {m1 m2 m3 : Mode} :
    (leftover q 3 = 0 ∧ modeAt q 1 = some m1 ∧ modeAt q 2 = some m2 ∧ modeAt q 3 = some m3) ↔
      q = modeNumber [m1, m2, m3] := by
  have digit1 := m1.digit_lt
  have digit2 := m2.digit_lt
  have digit3 := m3.digit_lt
  simp only [leftover, modeAt_eq_some, modeNumber, Nat.reduceSub, Nat.reducePow]
  omega

theorem modes_eq_two {q : Nat} {m1 m2 : Mode} :
    (leftover q 2 = 0 ∧ modeAt q 1 = some m1 ∧ modeAt q 2 = some m2) ↔
      q = modeNumber [m1, m2] := by
  have digit1 := m1.digit_lt
  have digit2 := m2.digit_lt
  simp only [leftover, modeAt_eq_some, modeNumber, Nat.reduceSub, Nat.reducePow]
  omega

theorem modes_eq_one {q : Nat} {m1 : Mode} :
    (leftover q 1 = 0 ∧ modeAt q 1 = some m1) ↔ q = modeNumber [m1] := by
  have digit1 := m1.digit_lt
  simp only [leftover, modeAt_eq_some, modeNumber, Nat.reduceSub, Nat.reducePow]
  omega

theorem modes_eq_zero {q : Nat} : leftover q 0 = 0 ↔ q = modeNumber [] := by
  simp only [leftover, modeNumber, Nat.pow_zero, Nat.div_one]

theorem decodeF0_eq_ok_modeNumber {i j : Instr} {q : Nat} :
    decodeF0 i q = .ok j ↔ q = modeNumber [] ∧ i = j := by
  rw [decodeF0_eq_ok, modes_eq_zero]

theorem decodeF1R_eq_ok_modeNumber {mk : Mode → Instr} {q : Nat} {i : Instr} :
    decodeF1R mk q = .ok i ↔ ∃ m1, q = modeNumber [m1] ∧ mk m1 = i := by
  simp only [decodeF1R_eq_ok, ← modes_eq_one, and_assoc, exists_and_left]

theorem decodeF1W_eq_ok_modeNumber {mk : Mode → Instr} {q : Nat} {i : Instr} :
    decodeF1W mk q = .ok i ↔ ∃ m1, q = modeNumber [m1] ∧ m1.IsWritable ∧ mk m1 = i := by
  simp only [decodeF1W_eq_ok, ← modes_eq_one, and_assoc, exists_and_left]

theorem decodeF2R_eq_ok_modeNumber {mk : Mode → Mode → Instr} {q : Nat} {i : Instr} :
    decodeF2R mk q = .ok i ↔ ∃ m1 m2, q = modeNumber [m1, m2] ∧ mk m1 m2 = i := by
  simp only [decodeF2R_eq_ok, ← modes_eq_two, and_assoc, exists_and_left]

theorem decodeF3W_eq_ok_modeNumber {mk : Mode → Mode → Mode → Instr} {q : Nat} {i : Instr} :
    decodeF3W mk q = .ok i ↔
      ∃ m1 m2 m3, q = modeNumber [m1, m2, m3] ∧ m3.IsWritable ∧ mk m1 m2 m3 = i := by
  simp only [decodeF3W_eq_ok, ← modes_eq_three, and_assoc, exists_and_left]

/-- R55, R57: an opcode and the rest of the word decode to `i` exactly where they are its own. -/
theorem decodeOp_eq_ok {o q : Nat} {i : Instr} :
    decodeOp o q = .ok i ↔ o = i.opcode ∧ i.WellFormed ∧ q = modeNumber i.modes := by
  fun_cases decodeOp o q
  case case1 | case2 | case7 | case8 =>
    rw [decodeF3W_eq_ok_modeNumber]
    cases i <;> simp [Instr.opcode, Instr.modes, and_comm]
  case case3 =>
    rw [decodeF1W_eq_ok_modeNumber]
    cases i <;> simp [Instr.opcode, Instr.modes, and_comm]
  case case4 | case9 =>
    rw [decodeF1R_eq_ok_modeNumber]
    cases i <;> simp [Instr.opcode, Instr.modes]
  case case5 | case6 =>
    rw [decodeF2R_eq_ok_modeNumber]
    cases i <;> simp [Instr.opcode, Instr.modes]
  case case10 =>
    rw [decodeF0_eq_ok_modeNumber]
    cases i <;> simp [Instr.opcode, Instr.modes]
  case case11 => cases i <;> simp_all [Instr.opcode]

theorem Instr.opcode_lt (i : Instr) : i.opcode < 100 := by
  cases i <;> simp [Instr.opcode]

/-- R57, R64: a word decodes to a well-formed instruction where it is its encoding, and to no other. -/
theorem decode_eq_ok {w : Int} {i : Instr} : decode w = .ok i ↔ i.WellFormed ∧ w = encode i := by
  have twoDigits := i.opcode_lt
  rcases lt_or_ge w 0 with hneg | hnonneg
  · have notEncoding : w ≠ encode i := by unfold encode; omega
    simp [decode_of_neg hneg, notEncoding]
  · obtain ⟨u, rfl⟩ := Int.eq_ofNat_of_zero_le hnonneg
    rw [decode_natCast, decodeOp_eq_ok, and_left_comm, encode]
    exact and_congr_right fun _ => by omega

/-- R51: the word of an instruction with three parameters. -/
theorem encode_of_modes_eq_three {i : Instr} {m1 m2 m3 : Mode} (h : i.modes = [m1, m2, m3]) :
    encode i = i.opcode + 100 * m1.digit + 1000 * m2.digit + 10000 * m3.digit := by
  simp only [encode, h, modeNumber]
  omega

end Sys2Proof
end

section
/-!
PROOFS. What ADD, MULTIPLY and EQUALS store, and the words that decode to them (R90, R91, R93).
-/

namespace Sys2Proof.Machine

variable {s : State} {m1 m2 m3 : Mode} {a1 a2 a3 : Nat}

/-- The template of 41_alu.md where all three parameters resolve: no fault is taken. -/
theorem aluOp_of_resolved (f : Int → Int → Int) (h1 : resolve s 1 m1 = .ok a1)
    (h2 : resolve s 2 m2 = .ok a2) (h3 : resolveWrite s 3 m3 = .ok a3) :
    aluOp f m1 m2 m3 s = .next ((s.store a3 (f (s.mem.read a1) (s.mem.read a2))).advance 3) := by
  have operands : operandsF3W s m1 m2 m3 = .ok (s.mem.read a1, s.mem.read a2, a3) :=
    operandsF3W_eq_ok.mpr ⟨a1, a2, h1, h2, h3, rfl, rfl⟩
  simp only [aluOp, operands, settle]

/-- A resolved write parameter has a writable mode (R60), so the instruction has its one word. -/
theorem decode_eq_ok_of_modes_eq_three {i : Instr} (hmodes : i.modes = [m1, m2, m3])
    (hwf : m3.IsWritable → i.WellFormed) (h3 : resolveWrite s 3 m3 = .ok a3) (w : Int) :
    decode w = .ok i ↔
      w = i.opcode + 100 * m1.digit + 1000 * m2.digit + 10000 * m3.digit := by
  have wellFormed : i.WellFormed := hwf (resolveWrite_eq_ok.mp h3).1
  rw [decode_eq_ok, encode_of_modes_eq_three hmodes, and_iff_right wellFormed]

theorem equalsWord_eq_ite (v1 v2 : Int) : equalsWord v1 v2 = if v1 = v2 then 1 else 0 := by
  simp only [equalsWord, truthWord, decide_eq_true_eq]

/-- Settles O17: ADD is the template with the sum. -/
theorem addStoresTheExactSum : Obligations.AddStoresTheExactSum :=
  fun _ _ _ _ _ _ _ h1 h2 h3 =>
    ⟨decode_eq_ok_of_modes_eq_three rfl id h3, aluOp_of_resolved (· + ·) h1 h2 h3⟩

/-- Settles O18: MULTIPLY is the template with the product. -/
theorem multiplyStoresTheExactProduct : Obligations.MultiplyStoresTheExactProduct :=
  fun _ _ _ _ _ _ _ h1 h2 h3 =>
    ⟨decode_eq_ok_of_modes_eq_three rfl id h3, aluOp_of_resolved (· * ·) h1 h2 h3⟩

/-- Settles O20: EQUALS is the template with the word of the comparison. -/
theorem equalsStoresOneOrZero : Obligations.EqualsStoresOneOrZero := by
  intro s m1 m2 m3 a1 a2 a3 h1 h2 h3
  rw [← equalsWord_eq_ite]
  exact ⟨decode_eq_ok_of_modes_eq_three rfl id h3, aluOp_of_resolved equalsWord h1 h2 h3⟩

end Sys2Proof.Machine
end

section
/-!
PROOFS. What INPUT and OUTPUT do and leave unchanged, and what their words decode to (R100, R101): first the
words of one parameter, then the operand's failure, then each outcome.
-/

namespace Sys2Proof

/-- R51: the word of an instruction with one parameter. -/
theorem encode_of_modes_eq_one {i : Instr} {m1 : Mode} (h : i.modes = [m1]) :
    encode i = i.opcode + 100 * m1.digit := by
  simp only [encode, h, modeNumber]
  omega

/-- R51, R57: a well-formed instruction with one parameter has its one word. -/
theorem decode_eq_ok_of_modes_eq_one {i : Instr} {m1 : Mode} (hmodes : i.modes = [m1])
    (hwf : i.WellFormed) (w : Int) : decode w = .ok i ↔ w = i.opcode + 100 * m1.digit := by
  rw [decode_eq_ok, encode_of_modes_eq_one hmodes, and_iff_right hwf]

/-- R59 for the opcodes of one parameter: a word with none of the three legal digits has a digit left over
or, with none left over, an illegal mode digit. -/
theorem decode_eq_invalidModes_of_one_param {o : Nat} {w : Int} (ho : o ∈ ([3, 4, 9] : List Nat))
    (hnonneg : 0 ≤ w) (hopcode : w % 100 = o) (hw : w ∉ ([o, o + 100, o + 200] : List Int)) :
    decode w = .error .invalidModes := by
  obtain ⟨u, rfl⟩ := Int.eq_ofNat_of_zero_le hnonneg
  simp only [List.mem_cons, List.not_mem_nil, or_false, not_or] at ho hw
  have row : (u % 100, 1) ∈ ([(1, 3), (2, 3), (3, 1), (4, 1), (5, 2), (6, 2), (7, 3), (8, 3), (9, 1),
      (99, 0)] : List (Nat × Nat)) := by
    have opcode : u % 100 = o := by omega
    rcases ho with rfl | rfl | rfl <;> simp [opcode]
  refine (invalidModesExactly u 1 row).mpr ?_
  by_cases hleft : u / (100 * 10 ^ 1) = 0
  · refine .inr ⟨1, le_rfl, le_rfl, ?_⟩
    simp only [digit]
    omega
  · exact .inl hleft

end Sys2Proof

namespace Sys2Proof.Machine

variable {s : State} {m1 : Mode} {a1 : Nat} {F : Cause}

/-! ### INPUT -/

/-- R80, R100: an unresolvable destination is fault entry before the queue is looked at. -/
theorem execInput_of_error (h : operandF1W s m1 = .error F) :
    execInput m1 s = .next (s.takeFault F) := by
  simp only [execInput, h, settle]

theorem execInput_of_ok (h : operandF1W s m1 = .ok a1) :
    execInput m1 s = settle s (inputAt a1 s) := by
  simp only [execInput, h]

theorem inputAt_of_cons {v : Int} {rest : List Int} (hq : s.inq = v :: rest) :
    inputAt a1 s = .ok { s with mem := s.mem.write a1 v, inq := rest, status := .running,
                                ip := s.ip + 2 } := by
  simp only [inputAt, hq, State.dropInput, State.store, State.setStatus, State.advance, List.tail_cons]

theorem inputAt_of_nil_suspends (hq : s.inq = []) (hs : s.suspendEn = true) :
    inputAt a1 s = .ok (s.setStatus .waitingForInput) := by
  simp only [inputAt, hq, hs, if_true]

theorem inputAt_of_nil_exhausted (hq : s.inq = []) (hs : s.suspendEn = false) :
    inputAt a1 s = .error .inputExhausted := by
  simp only [inputAt, hq, hs, Bool.false_eq_true, if_false]

/-- Settles O21: the words from the decoder's laws, the outcomes from `execInput`'s and `inputAt`'s. -/
theorem inputStoresTheHeadOrWaits : Obligations.InputStoresTheHeadOrWaits := by
  refine ⟨by decide, fun w => decode_eq_invalidModes_of_one_param (by decide), ?_⟩
  intro s m1 hwritable
  refine ⟨decode_eq_ok_of_modes_eq_one rfl hwritable, execInput_of_error, fun a1 hdest => ?_⟩
  have outcome {r : Except Cause State} (hr : inputAt a1 s = r) : exec (.input m1) s = settle s r :=
    (execInput_of_ok hdest).trans (congrArg (settle s) hr)
  exact ⟨fun _ _ hq => outcome (inputAt_of_cons hq),
    fun hq hs => outcome (inputAt_of_nil_suspends hq hs),
    fun hq hs => outcome (inputAt_of_nil_exhausted hq hs)⟩

/-! ### OUTPUT -/

/-- R80, R101: an unresolvable parameter is fault entry, with nothing appended. -/
theorem execOutput_of_error (h : resolve s 1 m1 = .error F) :
    execOutput m1 s = .next (s.takeFault F) := by
  simp only [execOutput, operandF1R_eq_error.mpr h, settle]

theorem execOutput_of_ok (h : resolve s 1 m1 = .ok a1) :
    execOutput m1 s = .next ((s.emit (s.mem.read a1)).advance 1) := by
  simp only [execOutput, operandF1R_eq_ok.mpr ⟨a1, h, rfl⟩, settle]

/-- Settles O22: the words from the decoder's laws, the two outcomes from `execOutput`'s. -/
theorem outputAppendsItsOperand : Obligations.OutputAppendsItsOperand :=
  ⟨fun _ => decode_eq_invalidModes_of_one_param (by decide), fun _ _ =>
    ⟨decode_eq_ok_of_modes_eq_one rfl trivial, execOutput_of_error, fun _ => execOutput_of_ok⟩⟩

end Sys2Proof.Machine
end

section
/-!
PROOFS. What ADJUST_BASE does and leaves unchanged, and what its words decode to (R120): the operand's
failure, then its one outcome.
-/

namespace Sys2Proof.Machine

variable {s : State} {m1 : Mode} {a1 : Nat} {F : Cause}

/-- R80, R120: an unresolvable parameter is fault entry, with the base as it was. -/
theorem execAdjustBase_of_error (h : resolve s 1 m1 = .error F) :
    execAdjustBase m1 s = .next (s.takeFault F) := by
  simp only [execAdjustBase, operandF1R_eq_error.mpr h, settle]

/-- R120: the parameter is resolved and its operand read in the state before the addition, so both use the
old base. -/
theorem execAdjustBase_of_ok (h : resolve s 1 m1 = .ok a1) :
    execAdjustBase m1 s = .next ((s.addBase (s.mem.read a1)).advance 1) := by
  simp only [execAdjustBase, operandF1R_eq_ok.mpr ⟨a1, h, rfl⟩, settle]

/-- Settles O25: the words from the decoder's laws, the two outcomes from `execAdjustBase`'s. -/
theorem adjustBaseAddsToTheRelativeBase : Obligations.AdjustBaseAddsToTheRelativeBase :=
  ⟨fun _ => decode_eq_invalidModes_of_one_param (by decide), fun _ _ =>
    ⟨decode_eq_ok_of_modes_eq_one rfl trivial, execAdjustBase_of_error, fun _ => execAdjustBase_of_ok⟩⟩

end Sys2Proof.Machine
end

section
/-!
PROOFS. What a constructed machine's cells and registers hold (R25, R160): a loaded program is read back cell
by cell.
-/

namespace Sys2Proof.Machine

/-- R34: the first loaded cell holds the first integer; the others are read from where the rest is loaded. -/
theorem Memory.read_ofCells_cons (a : Nat) (v : Int) (vs : List Int) (b : Nat) :
    (Memory.ofCells a (v :: vs)).read b = if a = b then v else (Memory.ofCells (a + 1) vs).read b := by
  by_cases hv : v = 0
  · have unlisted : (Memory.ofCells (a + 1) vs).read a = 0 :=
      read_of_not_mem _ _ fun c hc => Nat.ne_of_gt (ofCells_ge vs (a + 1) c hc)
    rw [Memory.ofCells, if_pos hv, hv]
    split
    · next hab => rw [← hab, unlisted]
    · rfl
  · rw [Memory.ofCells, if_neg hv, read_cons]

/-- R34: the cell at distance `k` from the load address holds integer `k`, and 0 past the last one. -/
theorem Memory.read_ofCells_add (vs : List Int) (a k : Nat) :
    (Memory.ofCells a vs).read (a + k) = (vs[k]?).getD 0 := by
  induction vs generalizing a k with
  | nil => rfl
  | cons v vs ih =>
    rw [read_ofCells_cons]
    cases k with
    | zero => rw [Nat.add_zero, if_pos rfl, List.getElem?_cons_zero, Option.getD_some]
    | succ k =>
      have shift : a + (k + 1) = a + 1 + k := by omega
      rw [if_neg (by omega), shift, ih, List.getElem?_cons_succ]

/-- Settles O8: the cells by `Memory.read_ofCells_add` at load address 0, the registers by `construct`'s
field lemmas. -/
theorem constructLeavesTheResetValues : Obligations.ConstructLeavesTheResetValues := by
  intro program flag
  refine ⟨fun a => ?_, State.construct_ip .., State.construct_rb .., State.construct_status ..,
    State.construct_suspendEn .., State.construct_fault .., State.construct_inq ..,
    State.construct_out .., State.construct_outMark ..⟩
  rw [State.construct_mem, ← Memory.read_ofCells_add program 0 a, Nat.zero_add]

end Sys2Proof.Machine
end

section
/-!
PROOFS. What IsHalted reports, and that a run call never takes it back (R163).
-/

namespace Sys2Proof.Machine

variable {s t : State}

theorem isHalted_eq_true : isHalted s = true ↔ s.status = .halted := decide_eq_true_iff

theorem isHalted_eq_false : isHalted s = false ↔ s.status ≠ .halted := decide_eq_false_iff_not

/-- R164, R165: a run call on a machine that may take no step leaves it as it was. -/
theorem run_keeps_of_not_enabled {policy : LeftoverPolicy} {fuel : Nat} {inputs : List Int}
    {r : RunResult} (h : ¬ Enabled s) (hrun : run policy fuel s inputs = some (r, t)) : t = s := by
  rcases run_cases hrun with ⟨_, -, -, same⟩ | ⟨-, -, -, same⟩ | ⟨noFault, notHalted, -⟩
  · exact same
  · exact same
  · exact absurd ⟨noFault, notHalted⟩ h

/-- Settles O51: each false case has a status other than Halted, a faulted machine's by R18; a halted machine
may take no step, so a run call keeps it. -/
theorem isHaltedReportsTheStatus : Obligations.IsHaltedReportsTheStatus := by
  refine ⟨fun _ => isHalted_eq_true, fun program flag => ?_, fun s waiting => ?_,
    fun s consistent faulted => ?_, fun policy fuel s t inputs r halted hrun => ?_⟩
  · simp [isHalted_eq_false]
  · simp [isHalted_eq_false, waiting]
  · simp [isHalted_eq_false, consistent.fault_running faulted]
  · have notEnabled : ¬ Enabled s := fun enabled => enabled.2 (isHalted_eq_true.mp halted)
    rw [run_keeps_of_not_enabled notEnabled hrun, halted]

end Sys2Proof.Machine
end

section
/-!
PROOFS. Decode against encode (R51, R57), the list of valid words (R64) and the unknown opcodes (R58, R61).
-/

namespace Sys2Proof

/-- Settles O2: the instruction's own encoding is the word that `decode_eq_ok` names. -/
theorem decodeOfEncodeIsTheInstruction : Obligations.DecodeOfEncodeIsTheInstruction :=
  fun _ wellFormed => decode_eq_ok.mpr ⟨wellFormed, rfl⟩

/-- Settles O3: `decode_eq_ok` over all integers, read from the word to the instruction. -/
theorem decodeAcceptsOnlyEncodings : Obligations.DecodeAcceptsOnlyEncodings := by
  intro w i hdecode
  obtain ⟨wellFormed, hword⟩ := decode_eq_ok.mp hdecode
  exact ⟨wellFormed, hword.symm⟩

/-- Settles O1: each word is evaluated. -/
theorem decodesTheWorkedExamples : Obligations.DecodesTheWorkedExamples := by
  unfold Obligations.DecodesTheWorkedExamples
  decide

/-! ### The 99 valid words -/

theorem encode_mem_validWords {i : Instr} (h : i.WellFormed) : encode i ∈ validWords := by
  revert h
  cases i with
  | add m1 m2 m3 => cases m1 <;> cases m2 <;> cases m3 <;> decide
  | multiply m1 m2 m3 => cases m1 <;> cases m2 <;> cases m3 <;> decide
  | input m1 => cases m1 <;> decide
  | output m1 => cases m1 <;> decide
  | jumpIfTrue m1 m2 => cases m1 <;> cases m2 <;> decide
  | jumpIfFalse m1 m2 => cases m1 <;> cases m2 <;> decide
  | lessThan m1 m2 m3 => cases m1 <;> cases m2 <;> cases m3 <;> decide
  | equals m1 m2 m3 => cases m1 <;> cases m2 <;> cases m3 <;> decide
  | adjustBase m1 => cases m1 <;> decide
  | halt => decide

theorem decode_isOk_of_mem_validWords : ∀ w ∈ validWords, (decode w).isOk = true := by decide

/-- Settles O4: the list is checked entry by entry; no other word decodes, since a word that does is an
encoding. -/
theorem validWordsAreTheListed99 : Obligations.ValidWordsAreTheListed99 := by
  refine ⟨by decide, by decide, fun w => ⟨?_, fun listed => ?_⟩⟩
  · rintro ⟨i, hdecode⟩
    obtain ⟨wellFormed, rfl⟩ := decode_eq_ok.mp hdecode
    exact encode_mem_validWords wellFormed
  · have answers := decode_isOk_of_mem_validWords w listed
    rcases hdecode : decode w with F | i
    · simp [hdecode, Except.isOk, Except.toBool] at answers
    · exact ⟨i, rfl⟩

/-! ### UnknownOpcode -/

theorem decodeF0_ne_unknownOpcode {i : Instr} {q : Nat} : decodeF0 i q ≠ .error .unknownOpcode := by
  unfold decodeF0
  split <;> simp

theorem decodeF1R_ne_unknownOpcode {mk : Mode → Instr} {q : Nat} :
    decodeF1R mk q ≠ .error .unknownOpcode := by
  unfold decodeF1R
  cases modeAt q 1 <;> split <;> simp

theorem decodeF1W_ne_unknownOpcode {mk : Mode → Instr} {q : Nat} :
    decodeF1W mk q ≠ .error .unknownOpcode := by
  fun_cases decodeF1W mk q <;> simp

theorem decodeF2R_ne_unknownOpcode {mk : Mode → Mode → Instr} {q : Nat} :
    decodeF2R mk q ≠ .error .unknownOpcode := by
  fun_cases decodeF2R mk q <;> simp

theorem decodeF3W_ne_unknownOpcode {mk : Mode → Mode → Mode → Instr} {q : Nat} :
    decodeF3W mk q ≠ .error .unknownOpcode := by
  fun_cases decodeF3W mk q <;> simp

/-- R55, R58: an opcode of the table selects a format, and no format raises UnknownOpcode. -/
theorem decodeOp_eq_unknownOpcode {o q : Nat} :
    decodeOp o q = .error .unknownOpcode ↔ o ∉ ([1, 2, 3, 4, 5, 6, 7, 8, 9, 99] : List Nat) := by
  fun_cases decodeOp o q
  case case1 | case2 | case7 | case8 => simp [decodeF3W_ne_unknownOpcode]
  case case3 => simp [decodeF1W_ne_unknownOpcode]
  case case4 | case9 => simp [decodeF1R_ne_unknownOpcode]
  case case5 | case6 => simp [decodeF2R_ne_unknownOpcode]
  case case10 => simp [decodeF0_ne_unknownOpcode]
  case case11 => simp_all

/-- Settles O5: R61 for a negative word, the opcode's answer for the others. -/
theorem unknownOpcodeExactly : Obligations.UnknownOpcodeExactly := by
  intro w
  rcases lt_or_ge w 0 with hneg | hnonneg
  · simp [decode_of_neg hneg, hneg]
  · obtain ⟨u, rfl⟩ := Int.eq_ofNat_of_zero_le hnonneg
    rw [decode_natCast, decodeOp_eq_unknownOpcode]
    simp only [List.mem_cons, List.not_mem_nil, or_false]
    omega

end Sys2Proof
end

section
/-!
PROOFS. What a step from a consistent state can do, and that it leads to a consistent state (R27): first the
effects of a step from any state, then the four ways a consistent machine's step ends.
-/

namespace Sys2Proof.Machine

variable {s t : State} {i : Instr}

/-- A step was enabled, and had the decoded instruction's effect or took the decoder's fault. -/
theorem step_effect (h : step s = .next t) :
    Enabled s ∧ ((∃ i, decode s.fetchWord = .ok i ∧ Effect i s t) ∨
      ∃ F, decode s.fetchWord = .error F ∧ t = s.takeFault F) := by
  obtain ⟨noFault, notHalted, ⟨i, hdecode, hexec⟩ | hfault⟩ := step_cases h
  · exact ⟨⟨noFault, notHalted⟩, .inl ⟨i, hdecode, exec_effect hexec⟩⟩
  · exact ⟨⟨noFault, notHalted⟩, .inr hfault⟩

/-! ### The parts of Consistent that no other part is needed for -/

theorem Effect.keeps_mem_wf (h : Effect i s t) (hwf : s.mem.wf) : t.mem.wf := by
  cases h with
  | stored | consumed => exact Memory.write_wf hwf _ _
  | suspended | exhausted | emitted | rebased | jumped | passed | halted | faulted => exact hwf

theorem step_keeps_mem_wf (hwf : s.mem.wf) (h : step s = .next t) : t.mem.wf := by
  obtain ⟨-, ⟨i, -, effect⟩ | ⟨F, -, rfl⟩⟩ := step_effect h
  · exact effect.keeps_mem_wf hwf
  · exact hwf

theorem Effect.suspendEn_outMark (h : Effect i s t) :
    t.suspendEn = s.suspendEn ∧ t.outMark = s.outMark := by
  cases h <;> exact ⟨rfl, rfl⟩

/-- R17, R22: a step leaves both to the host. -/
theorem step_suspendEn_outMark (h : step s = .next t) :
    t.suspendEn = s.suspendEn ∧ t.outMark = s.outMark := by
  obtain ⟨-, ⟨i, -, effect⟩ | ⟨F, -, rfl⟩⟩ := step_effect h
  · exact effect.suspendEn_outMark
  · exact ⟨rfl, rfl⟩

/-- R22, R101: a completed instruction leaves `out`, or is an OUTPUT that appends its operand. -/
theorem Effect.out (h : Effect i s t) :
    t.out = s.out ∨ ∃ m v, i = .output m ∧ operandF1R s m = .ok v ∧ t.out = s.out ++ [v] := by
  cases h with
  | emitted m v hi hv => exact .inr ⟨m, v, hi, hv, rfl⟩
  | stored | consumed | suspended | exhausted | rebased | jumped | passed | halted | faulted =>
    exact .inl rfl

/-- Settles O32: of the effects only OUTPUT's touches `out`. -/
theorem outputIsAppendOnly : Obligations.OutputIsAppendOnly := by
  intro s t h
  obtain ⟨-, ⟨i, hdecode, effect⟩ | ⟨F, -, rfl⟩⟩ := step_effect h
  · refine effect.out.imp_right ?_
    rintro ⟨m, v, rfl, hv, hout⟩
    exact ⟨m, v, hdecode, hv, hout⟩
  · exact .inl rfl

theorem step_out_append (h : step s = .next t) : ∃ more, t.out = s.out ++ more := by
  rcases outputIsAppendOnly s t h with same | ⟨m, v, -, -, grown⟩
  · exact ⟨[], by simp [same]⟩
  · exact ⟨[v], grown⟩

/-! ### The four ends of a step -/

/-- R27: a machine that may take a step and does not wait at an INPUT with suspension enabled is Running. -/
theorem Consistent.running_of_not_waiting (hc : Consistent s) (enabled : Enabled s)
    (h : ¬ (s.suspendEn = true ∧ AtInput s)) : s.status = .running := by
  cases hs : s.status with
  | running => rfl
  | waitingForInput => exact absurd (hc.waiting_at_input hs) h
  | halted => exact absurd hs enabled.2

theorem not_atInput_of_decode_error {F : Cause} (hdecode : decode s.fetchWord = .error F) :
    ¬ AtInput s := by
  rintro ⟨m, a, hinput, -⟩
  rw [hdecode] at hinput
  cases hinput

theorem atInput_iff_of_decode_ok (hdecode : decode s.fetchWord = .ok i) :
    AtInput s ↔ ∃ m a, i = .input m ∧ operandF1W s m = .ok a := by
  simp only [AtInput, hdecode, Except.ok.injEq]

/-- A consistent machine at another instruction is Running, so that instruction leaves it so. -/
theorem Consistent.running_of_decode_ok (hc : Consistent s) (enabled : Enabled s)
    (hdecode : decode s.fetchWord = .ok i) (notInput : ∀ m, i ≠ .input m) : s.status = .running := by
  refine hc.running_of_not_waiting enabled fun ⟨_, atInput⟩ => ?_
  obtain ⟨m, a, hi, -⟩ := (atInput_iff_of_decode_ok hdecode).mp atInput
  exact notInput m hi

/-- R83: the step completes and the machine runs on, it suspends, it halts, or it faults. -/
theorem Consistent.step_cases (hc : Consistent s) (h : step s = .next t) :
    (t.fault = none ∧ t.status = .running) ∨
    (AtInput s ∧ s.inq = [] ∧ s.suspendEn = true ∧ t = s.setStatus .waitingForInput) ∨
    (decode s.fetchWord = .ok .halt ∧ t = s.setStatus .halted) ∨
    (s.status = .running ∧ ∃ F, t = s.takeFault F) := by
  obtain ⟨enabled, ⟨i, hdecode, effect⟩ | ⟨F, hdecode, rfl⟩⟩ := step_effect h
  · have running := hc.running_of_decode_ok enabled hdecode
    cases effect with
    | stored a v notInput => exact .inl ⟨enabled.1, running notInput⟩
    | consumed => exact .inl ⟨enabled.1, rfl⟩
    | suspended m a hi hdest hq hs =>
      exact .inr (.inl ⟨(atInput_iff_of_decode_ok hdecode).mpr ⟨m, a, hi, hdest⟩, hq, hs, rfl⟩)
    | exhausted m a hi hdest hq hs =>
      have running := hc.running_of_not_waiting enabled (by simp [hs])
      exact .inr (.inr (.inr ⟨running, _, rfl⟩))
    | emitted m v hi => exact .inl ⟨enabled.1, running (by simp [hi])⟩
    | rebased m v hi => exact .inl ⟨enabled.1, running (by simp [hi])⟩
    | jumped a notInput => exact .inl ⟨enabled.1, running notInput⟩
    | passed notInput => exact .inl ⟨enabled.1, running notInput⟩
    | halted hi => exact .inr (.inr (.inl ⟨hi ▸ hdecode, rfl⟩))
    | faulted F notHalt cause hdest =>
      refine .inr (.inr (.inr ⟨hc.running_of_not_waiting enabled fun ⟨_, atInput⟩ => ?_, F, rfl⟩))
      obtain ⟨m, a, hi, resolved⟩ := (atInput_iff_of_decode_ok hdecode).mp atInput
      simp [hdest m hi] at resolved
  · have running := hc.running_of_not_waiting enabled
      fun waiting => not_atInput_of_decode_error hdecode waiting.2
    exact .inr (.inr (.inr ⟨running, F, rfl⟩))

/-! ### The invariant -/

/-- A machine that runs on has nothing to meet but its memory's form and the mark. -/
theorem consistent_of_running (hwf : t.mem.wf) (hmark : t.outMark ≤ t.out.length)
    (running : t.status = .running) : Consistent t :=
  ⟨hwf, hmark, fun _ => running, by simp [running], by simp [running]⟩

/-- Settles O40: memory and the mark by the effects, the status by the end of the step: the two that set it
leave `ip` and memory at the HALT or the INPUT. -/
theorem everyStepKeepsConsistent : Obligations.EveryStepKeepsConsistent := by
  intro s t hc h
  have hwf := step_keeps_mem_wf hc.mem_wf h
  have hmark : t.outMark ≤ t.out.length := by
    obtain ⟨more, hout⟩ := step_out_append h
    have hle := hc.mark_le
    rw [(step_suspendEn_outMark h).2, hout, List.length_append]
    omega
  have noFault := (step_effect h).1.1
  rcases hc.step_cases h with ⟨-, running⟩ | ⟨atInput, -, hs, rfl⟩ | ⟨atHalt, rfl⟩ | ⟨running, F, rfl⟩
  · exact consistent_of_running hwf hmark running
  · exact ⟨hwf, hmark, fun faulted => absurd noFault faulted, nofun, fun _ => ⟨hs, atInput⟩⟩
  · exact ⟨hwf, hmark, fun faulted => absurd noFault faulted, fun _ => atHalt, nofun⟩
  · exact consistent_of_running hwf hmark running

end Sys2Proof.Machine
end

section
/-!
PROOFS. The loop of a run call and the host's moves: how a call ends, and that every state the host leads to is
Consistent, and Idle between calls (R166, R173).
-/

namespace Sys2Proof.Machine

variable {s t : State} {policy : LeftoverPolicy} {fuel : Nat} {inputs : List Int} {r : RunResult}

/-! ### The loop -/

/-- R162: what a call that ends in `t` hands back. -/
def resultOf (t : State) : RunResult :=
  match t.fault with
  | some F => .failure F
  | none => .ok t.callOutputs

theorem resultOf_of_fault {F : Cause} (h : t.fault = some F) : resultOf t = .failure F := by
  simp only [resultOf, h]

theorem resultOf_of_no_fault (h : t.fault = none) : resultOf t = .ok t.callOutputs := by
  simp only [resultOf, h]

theorem outcomeOf_eq_continues : outcomeOf t = .continues ↔ t.fault = none ∧ t.status = .running := by
  rcases outcomeOf_cases t with ⟨F, hf, ho⟩ | ⟨hf, hs, ho⟩ | ⟨hf, hs, ho⟩ | ⟨hf, hs, ho⟩ <;>
    simp [*]

theorem outcomeOf_eq_fault {F : Cause} : outcomeOf t = .fault F ↔ t.fault = some F := by
  rcases outcomeOf_cases t with ⟨G, hf, ho⟩ | ⟨hf, -, ho⟩ | ⟨hf, -, ho⟩ | ⟨hf, -, ho⟩ <;> simp [hf, ho]

/-- R162: after a step the loop goes on, or returns what that step's outcome calls for. -/
theorem runLoop_succ_of_step (n : Nat) (h : step s = .next t) :
    runLoop (n + 1) s = if outcomeOf t = .continues then runLoop n t else some (resultOf t, t) := by
  rcases outcomeOf_cases t with ⟨F, hf, ho⟩ | ⟨hf, -, ho⟩ | ⟨hf, -, ho⟩ | ⟨hf, -, ho⟩ <;>
    simp [runLoop, h, ho, resultOf, hf]

/-- A loop that returns has taken a step first. -/
theorem runLoop_takes_step (h : runLoop fuel s = some (r, t)) : ∃ u, step s = .next u := by
  unfold runLoop at h
  split at h
  · cases h
  · split at h
    · next u hstep => exact ⟨u, hstep⟩
    · cases h
    · cases h

/-- The last step of a returned loop, in any property that the steps before it kept. -/
theorem runLoop_last_step {P : State → Prop}
    (keeps : ∀ s t, P s → step s = .next t → outcomeOf t = .continues → P t)
    (hP : P s) (h : runLoop fuel s = some (r, t)) :
    ∃ u, P u ∧ step u = .next t ∧ outcomeOf t ≠ .continues ∧ r = resultOf t := by
  induction fuel generalizing s with
  | zero => cases h
  | succ n ih =>
    obtain ⟨u, hstep⟩ := runLoop_takes_step h
    rw [runLoop_succ_of_step n hstep] at h
    split at h
    · next continues => exact ih (keeps s u hP hstep continues) h
    · next ends =>
      cases h
      exact ⟨s, hP, hstep, ends, rfl⟩

/-! ### Idle -/

/-- R83: a consistent machine whose step does not continue may take no further step, or waits on an empty
queue. -/
theorem Consistent.idle_of_last_step (hc : Consistent s) (h : step s = .next t)
    (ends : outcomeOf t ≠ .continues) : Idle t := by
  refine ⟨everyStepKeepsConsistent s t hc h, fun ⟨noFault, notHalted⟩ => ?_⟩
  rcases hc.step_cases h with runsOn | ⟨-, hq, -, rfl⟩ | ⟨-, rfl⟩ | ⟨-, F, rfl⟩
  · exact absurd (outcomeOf_eq_continues.mpr runsOn) ends
  · exact hq
  · exact absurd rfl notHalted
  · cases noFault

/-- A call begins with other inputs and its mark; the invariants speak of neither queue nor a mark beyond
`out`. -/
theorem Consistent.beginCall (hc : Consistent s) (policy : LeftoverPolicy) (inputs : List Int) :
    Consistent (s.beginCall policy inputs) :=
  ⟨hc.mem_wf, le_rfl, hc.fault_running, hc.halted_at_halt, hc.waiting_at_input⟩

/-- Settles O44: a call that executes ends by a step that does not continue, taken from a consistent state. -/
theorem runKeepsIdle : Obligations.RunKeepsIdle := by
  intro policy fuel s t inputs r idle hrun
  rcases run_cases hrun with ⟨_, -, -, rfl⟩ | ⟨-, -, -, rfl⟩ | ⟨-, -, hloop⟩
  · exact idle
  · exact idle
  · obtain ⟨u, hc, hstep, ends, -⟩ := runLoop_last_step
      (fun s t hc hstep _ => everyStepKeepsConsistent s t hc hstep)
      (idle.consistent.beginCall policy inputs) hloop
    exact hc.idle_of_last_step hstep ends

/-! ### The host's moves -/

theorem Effect.inq {i : Instr} (h : Effect i s t) :
    t.inq = s.inq ∨ ∃ m v, i = .input m ∧ s.inq = v :: t.inq := by
  cases h with
  | consumed m a v rest hi hdest hq => exact .inr ⟨m, v, hi, by simp [hq]⟩
  | stored | suspended | exhausted | emitted | rebased | jumped | passed | halted | faulted =>
    exact .inl rfl

/-- Settles O33: of the effects only INPUT's touches the queue. -/
theorem onlyInputConsumesTheQueue : Obligations.OnlyInputConsumesTheQueue := by
  intro s t h
  obtain ⟨-, ⟨i, hdecode, effect⟩ | ⟨F, -, rfl⟩⟩ := step_effect h
  · refine effect.inq.imp_right ?_
    rintro ⟨m, v, rfl, hq⟩
    exact ⟨m, v, hdecode, hq⟩
  · exact .inl rfl

/-- An idle machine that takes a step has an empty queue, and a step puts nothing into it. -/
theorem Idle.after_step (idle : Idle s) (h : step s = .next t) : Idle t := by
  refine ⟨everyStepKeepsConsistent s t idle.consistent h, fun _ => ?_⟩
  have empty := idle.queue_empty (step_effect h).1
  rcases onlyInputConsumesTheQueue s t h with same | ⟨_, v, -, consumed⟩
  · rw [same, empty]
  · simp [empty] at consumed

/-- What the host can rely on in each phase. -/
def HostInvariant : HostPhase → State → Prop
  | .betweenCalls, s => Idle s
  | .inCall, s => Consistent s

theorem HostInvariant.consistent {p : HostPhase} (h : HostInvariant p s) : Consistent s := by
  cases p with
  | betweenCalls => exact Idle.consistent h
  | inCall => exact h

theorem Transition.keeps_hostInvariant {p q : HostPhase} (move : Transition p s q t)
    (h : HostInvariant p s) : HostInvariant q t := by
  cases move with
  | beginCall _ policy inputs => exact h.consistent.beginCall policy inputs
  | noOpCall => exact h
  | callContinues _ _ hstep => exact everyStepKeepsConsistent s t h hstep
  | callReturns _ _ hstep ends => exact h.consistent.idle_of_last_step hstep ends
  | singleStep _ _ hstep => exact Idle.after_step h hstep

/-- Settles O42: the loaded memory is canonical, and the registers hold their reset values. -/
theorem constructedMachineIsIdle : Obligations.ConstructedMachineIsIdle :=
  fun program _ =>
    ⟨consistent_of_running (Memory.ofCells_wf program 0) (Nat.zero_le _) rfl, fun _ => rfl⟩

/-- Settles O41: reset is Construct of the empty program. -/
theorem resetIsConsistent : Obligations.ResetIsConsistent :=
  (constructedMachineIsIdle [] true).consistent

theorem Reachable.hostInvariant {p : HostPhase} (h : Reachable p s) : HostInvariant p s := by
  induction h with
  | construct program flag => exact constructedMachineIsIdle program flag
  | move _ _ _ _ _ move ih => exact move.keeps_hostInvariant ih

/-- Settles O43: `HostInvariant` holds at Construct and every move keeps it. -/
theorem reachableStatesAreConsistent : Obligations.ReachableStatesAreConsistent := by
  intro p s reachable
  refine ⟨reachable.hostInvariant.consistent, ?_⟩
  rintro rfl
  exact reachable.hostInvariant

/-- Settles O59: the call's beginning, its steps that continue and its last step are moves of the host. -/
theorem runLeadsToReachableStates : Obligations.RunLeadsToReachableStates := by
  intro policy fuel s t inputs r reachable hrun
  rcases run_cases hrun with ⟨_, -, -, rfl⟩ | ⟨-, -, -, rfl⟩ | ⟨noFault, notHalted, hloop⟩
  · exact reachable
  · exact reachable
  · have begun : Reachable .inCall (s.beginCall policy inputs) :=
      .move _ _ _ _ reachable (.beginCall s policy inputs ⟨noFault, notHalted⟩)
    obtain ⟨u, inCall, hstep, ends, -⟩ := runLoop_last_step (P := Reachable .inCall)
      (fun s t inCall hstep continues => .move _ _ _ _ inCall (.callContinues s t hstep continues))
      begun hloop
    exact .move _ _ _ _ inCall (.callReturns u t hstep ends)

/-- Settles O60: the moves of each phase, one by one. -/
theorem hostMovesOnlyBetweenCalls : Obligations.HostMovesOnlyBetweenCalls := by
  have queue {s t : State} (h : step s = .next t) : t.inq = s.inq ∨ ∃ v, s.inq = v :: t.inq :=
    (onlyInputConsumesTheQueue s t h).imp_right fun ⟨_, v, _, hq⟩ => ⟨v, hq⟩
  refine ⟨fun s t q move => ?_, fun s t q move => ?_⟩
  · cases move with
    | callContinues _ _ hstep continues =>
      exact ⟨hstep, by simp [continues], queue hstep, (step_suspendEn_outMark hstep).2⟩
    | callReturns _ _ hstep ends =>
      exact ⟨hstep, by simp [ends], queue hstep, (step_suspendEn_outMark hstep).2⟩
  · cases move with
    | beginCall _ policy inputs enabled =>
      refine .inl ⟨rfl, enabled, inputs, ?_⟩
      cases policy with
      | persist => exact .inl rfl
      | discard => exact .inr rfl
    | noOpCall _ notEnabled => exact .inr (.inl ⟨rfl, notEnabled, rfl⟩)
    | singleStep _ _ hstep => exact .inr (.inr ⟨rfl, hstep⟩)

end Sys2Proof.Machine
end

section
/-!
PROOFS. Rules over every step (R14, R15, R17, R18, R71, R83, R136): when a step exists, which part of the state it
may change, and how it ends.
-/

namespace Sys2Proof.Machine

variable {s t : State} {i : Instr}

/-! ### When a step exists -/

theorem settle_answers (s : State) (r : Except Cause State) : ∃ t, settle s r = .next t := by
  cases r with
  | ok t => exact ⟨t, rfl⟩
  | error F => exact ⟨s.takeFault F, rfl⟩

/-- Settles O13: HALT answers its state, every other meaning is settled. -/
theorem everyInstructionAnswersANextState : Obligations.EveryInstructionAnswersANextState := by
  intro i s
  cases i with
  | halt => exact ⟨_, rfl⟩
  | add | multiply | input | output | jumpIfTrue | jumpIfFalse | lessThan | equals | adjustBase =>
    exact settle_answers s _

theorem step_of_fault (h : s.fault ≠ none) : step s = .fault .stepAfterFault := if_pos h

theorem step_of_halted (noFault : s.fault = none) (h : s.status = .halted) :
    step s = .fault .stepAfterHalt := by
  simp only [step, cycle, noFault, h, ne_eq, not_true_eq_false, if_false, if_true]

theorem exists_step_of_enabled (h : Enabled s) : ∃ t, step s = .next t := by
  rcases hdecode : decode s.fetchWord with F | i
  · exact ⟨_, step_of_decode_error h hdecode⟩
  · obtain ⟨t, hexec⟩ := everyInstructionAnswersANextState i s
    exact ⟨t, (step_of_decode_ok h hdecode).trans hexec⟩

/-- R18: a consistent waiting machine has no fault, so a step exists. -/
theorem Consistent.enabled_of_waiting (hc : Consistent s) (h : s.status = .waitingForInput) :
    Enabled s := by
  refine ⟨by_contra fun faulted => ?_, by simp [h]⟩
  simpa [h] using hc.fault_running faulted

/-- R100: at an INPUT, an empty queue with suspension enabled changes the status alone. -/
theorem step_of_suspension (enabled : Enabled s) (h : AtInput s) (hq : s.inq = [])
    (hs : s.suspendEn = true) : step s = .next (s.setStatus .waitingForInput) := by
  obtain ⟨m, a, hdecode, hdest⟩ := h
  rw [step_of_decode_ok enabled hdecode]
  change execInput m s = _
  rw [execInput_of_ok hdest, inputAt_of_nil_suspends hq hs]
  rfl

/-- Settles O12: a step exists by the decoder's two answers; the hold is a suspension of a machine that waits
already. -/
theorem stepExistsExactlyWhenEnabled : Obligations.StepExistsExactlyWhenEnabled := by
  refine ⟨fun s => exists_step_of_enabled, fun s => step_of_fault, fun s => step_of_halted, ?_⟩
  intro s hc waiting
  have enabled := hc.enabled_of_waiting waiting
  obtain ⟨hs, atInput⟩ := hc.waiting_at_input waiting
  refine ⟨?_, fun hq => ?_⟩
  · obtain ⟨m, a, hdecode, -⟩ := atInput
    exact ⟨m, hdecode, step_of_decode_ok enabled hdecode⟩
  · rw [step_of_suspension enabled atInput hq hs, State.setStatus, ← waiting]

/-- Settles O10: the word 0 has no operation; an unwritten cell, the empty program's first among them, reads
0. -/
theorem stepOnAZeroCellIsUnknownOpcode : Obligations.StepOnAZeroCellIsUnknownOpcode := by
  have zeroCell {s : State} (enabled : Enabled s) (hzero : s.mem.read s.ip = 0) :
      step s = .next (s.takeFault .unknownOpcode) := by
    refine step_of_decode_error enabled ?_
    rw [State.fetchWord, hzero]
    decide
  exact ⟨fun s => zeroCell, fun flag => zeroCell ⟨rfl, nofun⟩ rfl⟩

/-! ### What a step may change -/

/-- Settles O31: of the effects only ADJUST_BASE's touches the base. -/
theorem onlyAdjustBaseChangesTheRelativeBase : Obligations.OnlyAdjustBaseChangesTheRelativeBase := by
  intro s t h changed
  obtain ⟨-, ⟨i, hdecode, effect⟩ | ⟨F, -, rfl⟩⟩ := step_effect h
  · cases effect with
    | rebased m v hi => exact ⟨m, hi ▸ hdecode⟩
    | stored | consumed | suspended | exhausted | emitted | jumped | passed | halted | faulted =>
      exact absurd rfl changed
  · exact absurd rfl changed

/-- Settles O34: a step by `step_suspendEn_outMark`, a call by induction over its loop. -/
theorem suspendFlagNeverChanges : Obligations.SuspendFlagNeverChanges := by
  refine ⟨fun s t => step_suspendEn_outMark, fun policy fuel s t inputs r hrun => ?_⟩
  rcases run_cases hrun with ⟨_, -, -, rfl⟩ | ⟨-, -, -, rfl⟩ | ⟨-, -, hloop⟩
  · rfl
  · rfl
  · have kept := runLoop_induction (P := fun s t => t.suspendEn = s.suspendEn)
      (fun _ _ hstep => (step_suspendEn_outMark hstep).1) (fun _ _ _ hst htu => htu.trans hst) hloop
    exact kept

/-! ### Faults -/

/-- R136: a completed instruction leaves the latch, or is fault entry. -/
theorem Effect.fault (h : Effect i s t) : t.fault = s.fault ∨ ∃ F, t = s.takeFault F := by
  cases h with
  | exhausted => exact .inr ⟨_, rfl⟩
  | faulted F => exact .inr ⟨F, rfl⟩
  | stored | consumed | suspended | emitted | rebased | jumped | passed | halted => exact .inl rfl

theorem exec_fault (h : exec i s = .next t) : t.fault = s.fault ∨ ∃ F, t = s.takeFault F :=
  (exec_effect h).fault

theorem step_fault (h : step s = .next t) : t.fault = none ∨ ∃ F, t = s.takeFault F := by
  obtain ⟨⟨noFault, -⟩, ⟨i, -, effect⟩ | ⟨F, -, rfl⟩⟩ := step_effect h
  · exact noFault ▸ effect.fault
  · exact .inr ⟨F, rfl⟩

/-- Settles O35: a step that leaves a cause in the latch is fault entry. -/
theorem faultEntryChangesOnlyTheLatch : Obligations.FaultEntryChangesOnlyTheLatch := by
  intro s t F h hF
  refine ⟨?_, step_of_fault (by simp [hF]), fun fuel => ?_⟩
  · rcases step_fault h with noFault | ⟨G, rfl⟩
    · simp [noFault] at hF
    · cases hF
      rfl
  · rw [runLoop_succ_of_step fuel h, outcomeOf_eq_fault.mpr hF, resultOf_of_fault hF, if_neg nofun]

/-- Settles O36: two effects set the latch, an exhausted INPUT's and an unresolvable parameter's or target's;
a well-formed instruction's parameter has no other cause than a negative address. -/
theorem whichInstructionRaisesWhichCause : Obligations.WhichInstructionRaisesWhichCause := by
  intro i s t F wellFormed noFault h hF
  cases exec_effect h with
  | exhausted m a hi hdest hq hs =>
    cases hF
    exact .inr ⟨rfl, ⟨m, hi⟩, hq, hs⟩
  | faulted G notHalt cause =>
    cases hF
    exact .inl ⟨cause.resolve_right (not_not.mpr wellFormed), notHalt⟩
  | stored | consumed | suspended | emitted | rebased | jumped | passed | halted =>
    simp [noFault] at hF

/-- Settles O37: of the four ends of a step only fault entry sets the latch. -/
theorem onlyARunningMachineFaults : Obligations.OnlyARunningMachineFaults := by
  intro s t hc h faulted
  have noFault := (step_effect h).1.1
  rcases hc.step_cases h with ⟨hf, -⟩ | ⟨-, -, -, rfl⟩ | ⟨-, rfl⟩ | ⟨running, -⟩
  · exact absurd hf faulted
  · exact absurd noFault faulted
  · exact absurd noFault faulted
  · exact running

/-! ### The status and the outcome -/

/-- Settles O38: each of the four ends gives the status; a step from a HALT word, or from an INPUT that must
suspend, is the one step there is. -/
theorem statusTransitions : Obligations.StatusTransitions := by
  intro s t hc h
  have enabled := (step_effect h).1
  refine ⟨⟨fun halted => ?_, fun atHalt => ?_⟩, ⟨fun waiting => ?_, fun ⟨atInput, hq, hs⟩ => ?_⟩,
    fun waiting nonempty => ?_⟩
  · rcases hc.step_cases h with ⟨-, running⟩ | ⟨-, -, -, rfl⟩ | ⟨atHalt, -⟩ | ⟨running, F, rfl⟩
    · simp [running] at halted
    · cases halted
    · exact atHalt
    · simp [running] at halted
  · rw [step_of_decode_ok enabled atHalt] at h
    cases h
    rfl
  · rcases hc.step_cases h with ⟨-, running⟩ | ⟨atInput, hq, hs, -⟩ | ⟨-, rfl⟩ | ⟨running, F, rfl⟩
    · simp [running] at waiting
    · exact ⟨atInput, hq, hs⟩
    · cases waiting
    · simp [running] at waiting
  · rw [step_of_suspension enabled atInput hq hs] at h
    cases h
    rfl
  · rcases hc.step_cases h with ⟨-, running⟩ | ⟨-, hq, -⟩ | ⟨atHalt, -⟩ | ⟨running, F, rfl⟩
    · exact running
    · exact absurd hq nonempty
    · obtain ⟨m, a, hdecode, -⟩ := (hc.waiting_at_input waiting).2
      simp [hdecode] at atHalt
    · exact running

/-- Settles O39: the outcome of each of the four ends. -/
theorem stepEndsInOneOfFourWays : Obligations.StepEndsInOneOfFourWays := by
  intro s t hc h
  have noFault := (step_effect h).1.1
  rcases hc.step_cases h with ⟨hf, running⟩ | ⟨-, -, -, rfl⟩ | ⟨-, rfl⟩ | ⟨-, F, rfl⟩
  · exact .inl ⟨outcomeOf_eq_continues.mpr ⟨hf, running⟩, running, hf, by simp [running]⟩
  · exact .inr (.inl ⟨by simp [outcomeOf, noFault], rfl⟩)
  · exact .inr (.inr (.inl ⟨by simp [outcomeOf, noFault], rfl⟩))
  · exact .inr (.inr (.inr ⟨F, outcomeOf_eq_fault.mpr rfl, rfl⟩))

end Sys2Proof.Machine
end

section
/-!
PROOFS. What a run call does and how it ends (R162 to R166), and that its fuel is no part of its answer.
-/

namespace Sys2Proof.Machine

variable {s t : State} {policy : LeftoverPolicy} {fuel : Nat} {inputs : List Int} {r : RunResult}

/-! ### The three answers of Run -/

/-- Settles O47: the latch decides first. -/
theorem runOnAFaultedMachineFailsAgain : Obligations.RunOnAFaultedMachineFailsAgain := by
  intro policy fuel s inputs F hF
  simp only [run, hF]

/-- Settles O46: without a fault, the status decides. -/
theorem runOnAHaltedMachineIsANoOp : Obligations.RunOnAHaltedMachineIsANoOp := by
  intro policy fuel s inputs ⟨halted, noFault⟩
  simp only [run, noFault, halted, if_true]

theorem run_of_enabled (policy : LeftoverPolicy) (fuel : Nat) (inputs : List Int) (h : Enabled s) :
    run policy fuel s inputs = runLoop fuel (s.beginCall policy inputs) := by
  obtain ⟨noFault, notHalted⟩ := h
  simp only [run, noFault, notHalted, if_false]

/-- R166: into an empty queue both policies queue the inputs alone. -/
theorem beginCall_of_queue_empty (policy : LeftoverPolicy) (inputs : List Int) (h : s.inq = []) :
    s.beginCall policy inputs = { s with inq := inputs, outMark := s.out.length } := by
  cases policy with
  | persist => simp only [State.beginCall, admitInputs, h, List.nil_append]
  | discard => rfl

/-- Settles O57: an enabled machine's call is its loop, from the state that the policy admits. -/
theorem runAdmitsItsInputs : Obligations.RunAdmitsItsInputs := by
  intro fuel s inputs enabled
  refine ⟨run_of_enabled .persist fuel inputs enabled, run_of_enabled .discard fuel inputs enabled,
    fun idle policy => ?_⟩
  rw [run_of_enabled policy fuel inputs enabled,
    beginCall_of_queue_empty policy inputs (idle.queue_empty enabled)]

/-- Settles O45: a policy is looked at only where a call executes, and an idle machine's queue is empty
there. -/
theorem leftoverPolicyHasNoEffect : Obligations.LeftoverPolicyHasNoEffect := by
  intro fuel s inputs idle
  by_cases enabled : Enabled s
  · have admitted := (runAdmitsItsInputs fuel s inputs enabled).2.2 idle
    rw [admitted .persist, admitted .discard]
  · unfold run
    cases hf : s.fault with
    | some F => rfl
    | none =>
      have halted : s.status = .halted := by simpa [hf] using enabled
      simp only [halted, if_true]

/-! ### The loop -/

/-- Settles O58: `runLoop_succ_of_step` at each outcome. -/
theorem runLoopTakesEachExit : Obligations.RunLoopTakesEachExit := by
  intro n s t h
  rw [runLoop_succ_of_step n h]
  rcases outcomeOf_cases t with ⟨F, hf, ho⟩ | ⟨hf, -, ho⟩ | ⟨hf, -, ho⟩ | ⟨hf, -, ho⟩
  · simp [ho, resultOf_of_fault hf]
  · simp [ho]
  · simp [ho, resultOf_of_no_fault hf, State.callOutputs]
  · simp [ho, resultOf_of_no_fault hf, State.callOutputs]

theorem runLoop_add_fuel (extra : Nat) {a : RunResult × State} (h : runLoop fuel s = some a) :
    runLoop (fuel + extra) s = some a := by
  induction fuel generalizing s with
  | zero => cases h
  | succ n ih =>
    obtain ⟨u, hstep⟩ := runLoop_takes_step h
    rw [runLoop_succ_of_step n hstep] at h
    rw [Nat.add_right_comm, runLoop_succ_of_step _ hstep]
    split
    · next continues => exact ih (by simpa [continues] using h)
    · next ends => simpa [ends] using h

/-- Settles O50: only the loop uses fuel. -/
theorem moreFuelDoesNotChangeARun : Obligations.MoreFuelDoesNotChangeARun := by
  intro policy fuel extra s inputs r h
  unfold run at h ⊢
  split
  · simpa [*] using h
  · split
    · simpa [*] using h
    · exact runLoop_add_fuel extra (by simpa [*] using h)

/-! ### How a call ends -/

/-- R22: in a call that began with the outputs `old`, the mark stands at their end and `out` only grew. -/
def InCallSince (old : List Int) (s : State) : Prop :=
  s.outMark = old.length ∧ ∃ more, s.out = old ++ more

theorem InCallSince.after_step {old : List Int} (h : InCallSince old s) (hstep : step s = .next t) :
    InCallSince old t := by
  obtain ⟨hmark, more, hout⟩ := h
  obtain ⟨appended, hgrown⟩ := step_out_append hstep
  exact ⟨(step_suspendEn_outMark hstep).2.trans hmark, more ++ appended, by simp [hgrown, hout]⟩

theorem InCallSince.out_eq {old : List Int} (h : InCallSince old s) : s.out = old ++ s.callOutputs := by
  obtain ⟨hmark, more, hout⟩ := h
  simp [State.callOutputs, hmark, hout]

/-- The state a call returns, if it executed: its loop has kept `InCallSince`, and `r` is that state's. -/
theorem runLoop_returns (h : runLoop fuel (s.beginCall policy inputs) = some (r, t)) :
    InCallSince s.out t ∧ r = resultOf t := by
  have begun : InCallSince s.out (s.beginCall policy inputs) := ⟨rfl, [], (List.append_nil _).symm⟩
  obtain ⟨u, since, hstep, -, hr⟩ :=
    runLoop_last_step (fun _ _ since hstep _ => since.after_step hstep) begun h
  exact ⟨since.after_step hstep, hr⟩

/-- Settles O48: a call that executed returns `out` from the mark; the others return no outputs. -/
theorem runReturnsTheOutputsOfTheCall : Obligations.RunReturnsTheOutputsOfTheCall := by
  intro policy fuel s t inputs outputs hrun
  rcases run_cases hrun with ⟨_, -, hr, -⟩ | ⟨-, -, hr, rfl⟩ | ⟨-, -, hloop⟩
  · cases hr
  · cases hr
    simp
  · obtain ⟨since, hr⟩ := runLoop_returns hloop
    rcases hf : t.fault with _ | F
    · rw [resultOf_of_no_fault hf] at hr
      cases hr
      exact since.out_eq
    · rw [resultOf_of_fault hf] at hr
      cases hr

/-- Settles O49: the last step of a call suspends, halts or faults, from a consistent state. -/
theorem runEndsSuspendedHaltedOrFailed : Obligations.RunEndsSuspendedHaltedOrFailed := by
  intro policy fuel s t inputs r hc hrun
  rcases run_cases hrun with ⟨F, hf, rfl, rfl⟩ | ⟨hf, halted, rfl, rfl⟩ | ⟨-, -, hloop⟩
  · exact .inr ⟨F, rfl, hf, [], (List.append_nil _).symm⟩
  · exact .inl ⟨[], rfl, hf, .inl halted⟩
  · obtain ⟨u, hcu, hstep, ends, rfl⟩ := runLoop_last_step
      (fun s t hc hstep _ => everyStepKeepsConsistent s t hc hstep) (hc.beginCall policy inputs) hloop
    have noFault := (step_effect hstep).1.1
    rcases hcu.step_cases hstep with runsOn | ⟨atInput, hq, -, rfl⟩ | ⟨-, rfl⟩ | ⟨-, F, rfl⟩
    · exact absurd (outcomeOf_eq_continues.mpr runsOn) ends
    · exact .inl ⟨_, resultOf_of_no_fault noFault, noFault, .inr ⟨rfl, hq, atInput⟩⟩
    · exact .inl ⟨_, resultOf_of_no_fault noFault, noFault, .inl rfl⟩
    · exact .inr ⟨F, rfl, rfl, (runLoop_returns hloop).1.2⟩

end Sys2Proof.Machine
end

section
/-!
PROOFS. What a parameter resolves to (R75 to R79), and that one without an address is fault entry, whichever
instruction it belongs to (R80).
-/

namespace Sys2Proof.Machine

variable {s : State} {m1 m2 m3 : Mode} {F : Cause}

/-- Settles O14: Position and Relative pass their integer to `toAddr`, Immediate its own cell. -/
theorem resolverFollowsTheModes : Obligations.ResolverFollowsTheModes :=
  fun _ _ _ => ⟨toAddr_eq_ok.trans eq_comm, rfl, toAddr_eq_ok.trans eq_comm,
    fun _ => resolveWrite_of_ne⟩

/-- Settles O15: the two modes that pass their integer to `toAddr`. -/
theorem negativeAddressExactly : Obligations.NegativeAddressExactly := by
  intro s k m F
  refine ⟨?_, fun writable => by rw [resolveWrite_of_ne writable]⟩
  cases m with
  | position => simp [resolve, State.param, toAddr_eq_error]
  | immediate => simp [resolve]
  | relative => simp [resolve, State.param, toAddr_eq_error]

/-! ### A parameter without an address -/

theorem operandsF3W_of_error (writable : m3.IsWritable)
    (h : resolve s 1 m1 = .error .negativeAddress ∨ resolve s 2 m2 = .error .negativeAddress ∨
      resolve s 3 m3 = .error .negativeAddress) :
    operandsF3W s m1 m2 m3 = .error .negativeAddress := by
  rcases hops : operandsF3W s m1 m2 m3 with F | ⟨v1, v2, a3⟩
  · have sameCause : F = .negativeAddress := by
      rcases operandsF3W_error hops with he | he | he
      · exact resolve_error he
      · exact resolve_error he
      · exact (resolveWrite_error he).resolve_right writable
    rw [sameCause]
  · obtain ⟨a1, a2, h1, h2, h3, -⟩ := operandsF3W_eq_ok.mp hops
    rw [resolveWrite_of_ne writable] at h3
    simp [h1, h2, h3] at h

theorem operandsF2R_of_error
    (h : resolve s 1 m1 = .error .negativeAddress ∨ resolve s 2 m2 = .error .negativeAddress) :
    operandsF2R s m1 m2 = .error .negativeAddress := by
  rcases hops : operandsF2R s m1 m2 with F | ⟨v1, v2⟩
  · have sameCause : F = .negativeAddress := by
      rcases operandsF2R_error hops with he | he <;> exact resolve_error he
    rw [sameCause]
  · obtain ⟨a1, a2, h1, h2, -⟩ := operandsF2R_eq_ok.mp hops
    simp [h1, h2] at h

theorem aluOp_of_error (f : Int → Int → Int) (h : operandsF3W s m1 m2 m3 = .error F) :
    aluOp f m1 m2 m3 s = .next (s.takeFault F) := by
  simp only [aluOp, h, settle]

theorem execJumpIfTrue_of_error (h : operandsF2R s m1 m2 = .error F) :
    execJumpIfTrue m1 m2 s = .next (s.takeFault F) := by
  simp only [execJumpIfTrue, h, settle]

theorem execJumpIfFalse_of_error (h : operandsF2R s m1 m2 = .error F) :
    execJumpIfFalse m1 m2 s = .next (s.takeFault F) := by
  simp only [execJumpIfFalse, h, settle]

/-! ### Which parameter it is -/

theorem resolve_error_of_three {k : Nat} {m : Mode} (hk : [m1, m2, m3][k]? = some m)
    (h : resolve s (k + 1) m = .error F) :
    resolve s 1 m1 = .error F ∨ resolve s 2 m2 = .error F ∨ resolve s 3 m3 = .error F := by
  match k, hk with
  | 0, rfl => exact .inl h
  | 1, rfl => exact .inr (.inl h)
  | 2, rfl => exact .inr (.inr h)

theorem resolve_error_of_two {k : Nat} {m : Mode} (hk : [m1, m2][k]? = some m)
    (h : resolve s (k + 1) m = .error F) : resolve s 1 m1 = .error F ∨ resolve s 2 m2 = .error F := by
  match k, hk with
  | 0, rfl => exact .inl h
  | 1, rfl => exact .inr h

theorem resolve_error_of_one {k : Nat} {m : Mode} (hk : [m1][k]? = some m)
    (h : resolve s (k + 1) m = .error F) : resolve s 1 m1 = .error F := by
  match k, hk with
  | 0, rfl => exact h

/-- Settles O16: the operands of each format raise the cause, and every meaning takes it as it is. -/
theorem unresolvableParameterFaults : Obligations.UnresolvableParameterFaults := by
  intro i s k m wellFormed hk h
  cases i with
  | add | multiply | lessThan | equals =>
    exact aluOp_of_error _ (operandsF3W_of_error wellFormed (resolve_error_of_three hk h))
  | jumpIfTrue =>
    exact execJumpIfTrue_of_error (operandsF2R_of_error (resolve_error_of_two hk h))
  | jumpIfFalse =>
    exact execJumpIfFalse_of_error (operandsF2R_of_error (resolve_error_of_two hk h))
  | input m1 =>
    refine execInput_of_error ?_
    rw [operandF1W, resolveWrite_of_ne wellFormed]
    exact resolve_error_of_one hk h
  | output => exact execOutput_of_error (resolve_error_of_one hk h)
  | adjustBase => exact execAdjustBase_of_error (resolve_error_of_one hk h)
  | halt => cases hk

end Sys2Proof.Machine
end

section
/-!
PROOFS. What LESS_THAN, the jumps and HALT do and which words decode to them (R92, R110, R111, R121), and that a
store is seen by the next fetch (R40, R43).
-/

namespace Sys2Proof

/-- R51: the word of an instruction with two parameters, which is always well-formed. -/
theorem decode_eq_ok_of_modes_eq_two {i : Instr} {m1 m2 : Mode} (hmodes : i.modes = [m1, m2])
    (hwf : i.WellFormed) (w : Int) :
    decode w = .ok i ↔ w = i.opcode + 100 * m1.digit + 1000 * m2.digit := by
  rw [decode_eq_ok, and_iff_right hwf, encode, hmodes]
  simp only [modeNumber]
  omega

end Sys2Proof

namespace Sys2Proof.Machine

variable {s : State} {m1 m2 m3 : Mode} {a1 a2 a3 : Nat}

/-! ### LESS_THAN -/

theorem lessThanWord_eq_ite (v1 v2 : Int) : lessThanWord v1 v2 = if v1 < v2 then 1 else 0 := by
  simp only [lessThanWord, truthWord, decide_eq_true_eq]

/-- Settles O19: LESS_THAN is the template with the word of the comparison. -/
theorem lessThanStoresOneOrZero : Obligations.LessThanStoresOneOrZero := by
  intro s m1 m2 m3 a1 a2 a3 h1 h2 h3
  rw [← lessThanWord_eq_ite]
  exact ⟨decode_eq_ok_of_modes_eq_three rfl id h3, aluOp_of_resolved lessThanWord h1 h2 h3⟩

/-! ### The jumps -/

theorem jumpWhen_to_address (s : State) (target : Nat) :
    jumpWhen true target s = .ok (s.jumpTo target) := by
  have address : toAddr target = .ok target := toAddr_eq_ok.mpr rfl
  simp only [jumpWhen, if_true, address]

theorem jumpWhen_to_negative (s : State) {v2 : Int} (h : v2 < 0) :
    jumpWhen true v2 s = .error .negativeAddress := by
  simp only [jumpWhen, if_true, toAddr_eq_error.mpr ⟨rfl, h⟩]

theorem jumpWhen_not_taken (s : State) (v2 : Int) : jumpWhen false v2 s = .ok (s.advance 2) := rfl

theorem countsAsTrue_of_ne_zero {v : Int} (h : v ≠ 0) : countsAsTrue v = true := decide_eq_true h

theorem countsAsTrue_zero : countsAsTrue 0 = false := rfl

theorem execJumpIfTrue_of_resolved (h1 : resolve s 1 m1 = .ok a1) (h2 : resolve s 2 m2 = .ok a2) :
    exec (.jumpIfTrue m1 m2) s =
      settle s (jumpWhen (countsAsTrue (s.mem.read a1)) (s.mem.read a2) s) := by
  have operands := operandsF2R_eq_ok.mpr ⟨a1, a2, h1, h2, rfl, rfl⟩
  simp only [exec, execJumpIfTrue, operands]

theorem execJumpIfFalse_of_resolved (h1 : resolve s 1 m1 = .ok a1) (h2 : resolve s 2 m2 = .ok a2) :
    exec (.jumpIfFalse m1 m2) s =
      settle s (jumpWhen (!countsAsTrue (s.mem.read a1)) (s.mem.read a2) s) := by
  have operands := operandsF2R_eq_ok.mpr ⟨a1, a2, h1, h2, rfl, rfl⟩
  simp only [exec, execJumpIfFalse, operands]

/-- Settles O23: taken where operand 1 is not 0, with the two kinds of target. -/
theorem jumpIfTrueGoesToItsTarget : Obligations.JumpIfTrueGoesToItsTarget := by
  intro s m1 m2 a1 a2 h1 h2
  rw [execJumpIfTrue_of_resolved h1 h2]
  refine ⟨decode_eq_ok_of_modes_eq_two rfl trivial, fun target htrue htarget => ?_,
    fun htrue hneg => ?_, fun hzero => ?_⟩
  · rw [countsAsTrue_of_ne_zero htrue, htarget, jumpWhen_to_address]
    rfl
  · rw [countsAsTrue_of_ne_zero htrue, jumpWhen_to_negative s hneg]
    rfl
  · rw [hzero, countsAsTrue_zero, jumpWhen_not_taken]
    rfl

/-- Settles O24: taken where operand 1 is 0, with the two kinds of target. -/
theorem jumpIfFalseGoesToItsTarget : Obligations.JumpIfFalseGoesToItsTarget := by
  intro s m1 m2 a1 a2 h1 h2
  rw [execJumpIfFalse_of_resolved h1 h2]
  refine ⟨decode_eq_ok_of_modes_eq_two rfl trivial, fun target hzero htarget => ?_,
    fun hzero hneg => ?_, fun htrue => ?_⟩
  · rw [hzero, countsAsTrue_zero, Bool.not_false, htarget, jumpWhen_to_address]
    rfl
  · rw [hzero, countsAsTrue_zero, Bool.not_false, jumpWhen_to_negative s hneg]
    rfl
  · rw [countsAsTrue_of_ne_zero htrue, Bool.not_true, jumpWhen_not_taken]
    rfl

/-! ### HALT -/

/-- Settles O26: 99 is HALT's encoding; in another word with its opcode a digit is left over. -/
theorem haltChangesOnlyTheStatus : Obligations.HaltChangesOnlyTheStatus := by
  refine ⟨fun w => ?_, fun w hnonneg hopcode hne => ?_, fun s => rfl,
    fun s noFault => step_of_halted noFault rfl⟩
  · rw [decode_eq_ok, and_iff_right trivial]
    rfl
  · obtain ⟨u, rfl⟩ := Int.eq_ofNat_of_zero_le hnonneg
    have opcode : u % 100 = 99 := by omega
    refine (invalidModesExactly u 0 (by simp [opcode])).mpr (.inl ?_)
    simp only [Nat.pow_zero]
    omega

/-! ### A store and the next fetch -/

/-- R40, R43: the template's store, where the next fetch reads it. -/
theorem aluOp_store_seen (f : Int → Int → Int) (h1 : resolve s 1 m1 = .ok a1)
    (h2 : resolve s 2 m2 = .ok a2) (h3 : resolveWrite s 3 m3 = .ok a3) :
    ∃ t, aluOp f m1 m2 m3 s = .next t ∧ t.ip = s.ip + 4 ∧
      t.mem.read a3 = f (s.mem.read a1) (s.mem.read a2) ∧
      (a3 = s.ip + 4 → t.fetchWord = f (s.mem.read a1) (s.mem.read a2)) := by
  refine ⟨_, aluOp_of_resolved f h1 h2 h3, rfl, Memory.read_write_same _ _ _, ?_⟩
  rintro rfl
  exact Memory.read_write_same _ _ _

/-- Settles O27: the four ALU instructions by their template; INPUT by its own store. -/
theorem storeIsSeenByTheNextFetch : Obligations.StoreIsSeenByTheNextFetch := by
  refine ⟨fun s m1 m2 m3 a1 a2 a3 h1 h2 h3 p hp => ?_, fun s m1 a1 v rest hdest hq => ?_⟩
  · simp only [← lessThanWord_eq_ite, ← equalsWord_eq_ite, List.mem_cons, List.not_mem_nil,
      or_false] at hp
    rcases hp with rfl | rfl | rfl | rfl
    · exact aluOp_store_seen (· + ·) h1 h2 h3
    · exact aluOp_store_seen (· * ·) h1 h2 h3
    · exact aluOp_store_seen lessThanWord h1 h2 h3
    · exact aluOp_store_seen equalsWord h1 h2 h3
  · have hexec : exec (.input m1) s = settle s (inputAt a1 s) := execInput_of_ok hdest
    rw [hexec, inputAt_of_cons hq]
    refine ⟨_, rfl, rfl, Memory.read_write_same _ _ _, ?_⟩
    rintro rfl
    exact Memory.read_write_same _ _ _

/-! ### Frames -/

theorem exec_eq_aluOp {i : Instr} (h : i ∈ [Instr.add m1 m2 m3, Instr.multiply m1 m2 m3,
      Instr.lessThan m1 m2 m3, Instr.equals m1 m2 m3]) (s : State) :
    ∃ f, exec i s = aluOp f m1 m2 m3 s := by
  simp only [List.mem_cons, List.not_mem_nil, or_false] at h
  rcases h with rfl | rfl | rfl | rfl
  · exact ⟨(· + ·), rfl⟩
  · exact ⟨(· * ·), rfl⟩
  · exact ⟨lessThanWord, rfl⟩
  · exact ⟨equalsWord, rfl⟩

/-- Settles O28: the template stores one cell, at the address its write parameter resolves to. -/
theorem aluFrame : Obligations.AluFrame := by
  intro m1 m2 m3 i s t hi h
  have latch := exec_fault h
  obtain ⟨f, hf⟩ := exec_eq_aluOp hi s
  rw [hf] at h
  obtain ⟨v1, v2, a3, hops, rfl⟩ | ⟨F, -, rfl⟩ := aluOp_cases h
  · obtain ⟨a1, a2, -, -, h3, -⟩ := operandsF3W_eq_ok.mp hops
    refine ⟨rfl, rfl, rfl, rfl, rfl, rfl, latch, fun b hb => Memory.read_write_other _ _ ?_⟩
    rintro rfl
    exact hb h3
  · exact ⟨rfl, rfl, rfl, rfl, rfl, rfl, latch, fun _ _ => rfl⟩

/-- Settles O29: of INPUT's four outcomes one takes the queue's head and stores it, and that one needs a
non-empty queue. -/
theorem inputFrame : Obligations.InputFrame := by
  intro m1 s t h
  have latch := exec_fault h
  obtain ⟨a1, v, rest, hdest, hq, rfl⟩ | ⟨a1, -, -, -, rfl⟩ | ⟨a1, -, -, -, rfl⟩ | ⟨F, -, rfl⟩ :=
    execInput_cases h
  · refine ⟨rfl, rfl, rfl, rfl, .inr rfl, latch, fun b hb => Memory.read_write_other _ _ ?_,
      fun empty => by simp [empty] at hq⟩
    rintro rfl
    exact hb hdest
  · exact ⟨rfl, rfl, rfl, rfl, .inl rfl, latch, fun _ _ => rfl, fun _ => ⟨rfl, rfl⟩⟩
  · exact ⟨rfl, rfl, rfl, rfl, .inl rfl, latch, fun _ _ => rfl, fun _ => ⟨rfl, rfl⟩⟩
  · exact ⟨rfl, rfl, rfl, rfl, .inl rfl, latch, fun _ _ => rfl, fun _ => ⟨rfl, rfl⟩⟩

/-- A jump, taken or not, goes to some address with all else unchanged, or is fault entry. -/
theorem jump_frame {taken : Int → Bool} {t : State}
    (h : settle s (match operandsF2R s m1 m2 with
      | .ok (v1, v2) => jumpWhen (taken v1) v2 s
      | .error F => .error F) = .next t) :
    (∃ a, t = s.jumpTo a) ∨ ∃ F, t = s.takeFault F := by
  obtain ⟨v1, v2, -, ⟨a, -, -, rfl⟩ | ⟨-, -, rfl⟩ | ⟨-, rfl⟩⟩ | ⟨F, -, rfl⟩ := jump_cases h
  · exact .inl ⟨a, rfl⟩
  · exact .inr ⟨_, rfl⟩
  · exact .inl ⟨s.ip + 2 + 1, rfl⟩
  · exact .inr ⟨F, rfl⟩

/-- What the instructions without a write parameter can do to the state. -/
theorem nonStoring_cases {i : Instr} {t : State}
    (hi : (∃ m, i = .output m) ∨ (∃ m n, i = .jumpIfTrue m n) ∨ (∃ m n, i = .jumpIfFalse m n) ∨
      (∃ m, i = .adjustBase m) ∨ i = .halt) (h : exec i s = .next t) :
    (∃ m v, i = .output m ∧ t = (s.emit v).advance 1) ∨
    (∃ m v, i = .adjustBase m ∧ t = (s.addBase v).advance 1) ∨
    (i = .halt ∧ t = s.setStatus .halted) ∨
    (i ≠ .halt ∧ ((∃ a, t = s.jumpTo a) ∨ ∃ F, t = s.takeFault F)) := by
  rcases hi with ⟨m, rfl⟩ | ⟨m, n, rfl⟩ | ⟨m, n, rfl⟩ | ⟨m, rfl⟩ | rfl
  · obtain ⟨v, -, rfl⟩ | ⟨F, -, rfl⟩ := execOutput_cases h
    · exact .inl ⟨m, v, rfl, rfl⟩
    · exact .inr (.inr (.inr ⟨nofun, .inr ⟨F, rfl⟩⟩))
  · exact .inr (.inr (.inr ⟨nofun, jump_frame h⟩))
  · exact .inr (.inr (.inr ⟨nofun, jump_frame (taken := fun v => !countsAsTrue v) h⟩))
  · obtain ⟨v, -, rfl⟩ | ⟨F, -, rfl⟩ := execAdjustBase_cases h
    · exact .inr (.inl ⟨m, v, rfl, rfl⟩)
    · exact .inr (.inr (.inr ⟨nofun, .inr ⟨F, rfl⟩⟩))
  · cases h
    exact .inr (.inr (.inl ⟨rfl, rfl⟩))

/-- Settles O30: each of the cases, clause by clause. -/
theorem nonStoringFrame : Obligations.NonStoringFrame := by
  intro i s t hi h
  have latch := exec_fault h
  rcases nonStoring_cases hi h with ⟨m, v, hi, rfl⟩ | ⟨m, v, hi, rfl⟩ | ⟨hi, rfl⟩ |
    ⟨notHalt, ⟨a, rfl⟩ | ⟨F, rfl⟩⟩
  · exact ⟨fun _ => rfl, rfl, rfl, rfl, fun notOutput => absurd hi (notOutput m), fun _ => rfl,
      fun _ => rfl, fun halt => by simp [hi] at halt, latch⟩
  · exact ⟨fun _ => rfl, rfl, rfl, rfl, fun _ => rfl, fun notAdjust => absurd hi (notAdjust m),
      fun _ => rfl, fun halt => by simp [hi] at halt, latch⟩
  · exact ⟨fun _ => rfl, rfl, rfl, rfl, fun _ => rfl, fun _ => rfl, fun notHalt => absurd hi notHalt,
      fun _ => ⟨rfl, rfl⟩, latch⟩
  · exact ⟨fun _ => rfl, rfl, rfl, rfl, fun _ => rfl, fun _ => rfl, fun _ => rfl,
      fun halt => absurd halt notHalt, latch⟩
  · exact ⟨fun _ => rfl, rfl, rfl, rfl, fun _ => rfl, fun _ => rfl, fun _ => rfl,
      fun halt => absurd halt notHalt, latch⟩

end Sys2Proof.Machine
end

section
/-!
PROOFS. Memories as functions (R24), the fault codes (R131), several machines (R141) and the amplifier network
(R144 to R148).
-/

namespace Sys2Proof.Machine

/-! ### Memory -/

/-- In canonical form the entries are exactly the cells that read other than 0. -/
theorem Memory.mem_iff_read {m : Memory} (h : m.wf) (a : Nat) (v : Int) :
    (a, v) ∈ m ↔ v ≠ 0 ∧ m.read a = v := by
  induction m with
  | nil => simp [eq_comm]
  | cons c m ih =>
    obtain ⟨b, x⟩ := c
    obtain ⟨sorted, nonzero⟩ := h
    obtain ⟨below, sorted⟩ := List.pairwise_cons.mp sorted
    obtain ⟨hx, nonzero⟩ := List.forall_mem_cons.mp nonzero
    rw [List.mem_cons, Prod.mk.injEq, ih ⟨sorted, nonzero⟩, read_cons]
    split
    · next hba =>
      subst hba
      have unlisted : Memory.read m b = 0 := read_of_not_mem m b fun c hc => Nat.ne_of_gt (below c hc)
      rw [unlisted]
      constructor
      · rintro (⟨-, rfl⟩ | ⟨hv, hzero⟩)
        · exact ⟨hx, rfl⟩
        · exact absurd hzero.symm hv
      · rintro ⟨-, rfl⟩
        exact .inl ⟨rfl, rfl⟩
    · next hba => simp [Ne.symm hba]

/-- Settles O9: the two lists have the same entries, each once, in the same order. -/
theorem memoriesThatReadAlikeAreEqual : Obligations.MemoriesThatReadAlikeAreEqual := by
  intro m n hm hn alike
  have nodup {l : Memory} (h : l.wf) : l.Nodup := h.1.imp fun hlt heq => by simp [heq] at hlt
  have sameEntries : m.Perm n := (List.perm_ext_iff_of_nodup (nodup hm) (nodup hn)).mpr
    fun (a, v) => by rw [Memory.mem_iff_read hm, Memory.mem_iff_read hn, alike]
  exact sameEntries.eq_of_pairwise (fun c d _ _ hcd hdc => absurd hcd hdc.asymm) hm.1 hn.1

/-! ### Fault codes -/

/-- R131: what the latch holds where its code is `n`. -/
def latchOfCode (n : Nat) : Option Cause :=
  match n with
  | 1 => some .unknownOpcode
  | 2 => some .invalidModes
  | 3 => some .writeImmediate
  | 4 => some .inputExhausted
  | 5 => some .negativeAddress
  | _ => none

theorem latchOfCode_faultCode (f : Option Cause) : latchOfCode (faultCode f) = f := by
  rcases f with _ | F
  · rfl
  · cases F <;> rfl

theorem faultCode_injective : Function.Injective faultCode :=
  Function.LeftInverse.injective latchOfCode_faultCode

theorem faultCode_le (f : Option Cause) : faultCode f ≤ 5 := by
  rcases f with _ | F
  · decide
  · cases F <;> decide

/-- Settles O52: a code can be read back, so no two contents of the latch share one; the empty latch's is 0. -/
theorem faultCodesAreDistinct : Obligations.FaultCodesAreDistinct :=
  ⟨fun _ _ h => faultCode_injective h,
    fun f => ⟨faultCode_le f, faultCode_injective.eq_iff' rfl⟩⟩

/-! ### Several machines -/

variable {policy : LeftoverPolicy} {fuel k : Nat} {ms ms' : List State} {inputs : List Int}
  {r : RunResult}

theorem runInstance_eq_some :
    runInstance policy fuel ms k inputs = some (r, ms') ↔
      ∃ m m', ms[k]? = some m ∧ run policy fuel m inputs = some (r, m') ∧ ms' = ms.set k m' := by
  unfold runInstance
  rcases hm : ms[k]? with _ | m
  · simp
  · rcases hrun : run policy fuel m inputs with _ | ⟨r', m'⟩
    · simp [hrun]
    · simp [hrun, eq_comm]

/-- Settles O53: what `List.set` leaves, place by place. -/
theorem instancesShareNothing : Obligations.InstancesShareNothing := by
  intro policy fuel ms ms' k inputs r
  rw [runInstance_eq_some]
  refine exists_congr fun m => exists_congr fun m' => ?_
  refine and_congr_right fun hm => and_congr_right fun _ => ?_
  have hk : k < ms.length := (List.getElem?_eq_some_iff.mp hm).1
  constructor
  · rintro rfl
    exact ⟨List.getElem?_set_self hk, List.length_set, fun j hj => List.getElem?_set_ne hj.symm⟩
  · rintro ⟨hat, -, hother⟩
    refine List.ext_getElem? fun j => ?_
    by_cases hj : j = k
    · rw [hj, hat, List.getElem?_set_self hk]
    · rw [hother j hj, List.getElem?_set_ne (Ne.symm hj)]

/-! ### The network -/

/-- Settles O56: the round looks at the machine's answer alone. -/
theorem roundRefusesOtherThanOneOutput : Obligations.RoundRefusesOtherThanOneOutput := by
  intro policy fuel k before rest ms ms' carried
  refine ⟨fun outputs hcall hlength => ?_, fun F hcall => ?_, fun o hcall => ?_⟩
  · match outputs, hlength with
    | [], _ => simp only [passRound, hcall]
    | [o], hlength => exact absurd rfl hlength
    | _ :: _ :: _, _ => simp only [passRound, hcall]
  · simp only [passRound, hcall]
  · rw [passRound, hcall]

theorem insertions_eq_permutations'Aux (x : Int) (l : List Int) :
    insertions x l = l.permutations'Aux x := by
  induction l with
  | nil => rfl
  | cons y l ih => rw [insertions, List.permutations'Aux, ih]

/-- The model's list is Mathlib's `List.permutations'`. -/
theorem phaseAssignments_eq_permutations' (phases : List Int) :
    phaseAssignments phases = phases.permutations' := by
  induction phases with
  | nil => rfl
  | cons x rest ih =>
    rw [phaseAssignments, List.permutations', ih]
    exact congrArg (List.flatMap · _) (funext (insertions_eq_permutations'Aux x))

/-- Settles O54: by Mathlib's characterisation of `List.permutations'`. -/
theorem phaseAssignmentsAreThePermutations : Obligations.PhaseAssignmentsAreThePermutations := by
  intro phases p
  rw [phaseAssignments_eq_permutations', List.mem_permutations']

theorem trialValues_eq_some {ts : List TrialResult} {vs : List Int} :
    trialValues ts = some vs ↔ ts = vs.map .value := by
  induction ts generalizing vs with
  | nil => cases vs <;> simp [trialValues]
  | cons t ts ih =>
    cases t with
    | value w => cases vs <;> simp [trialValues, ih, and_comm]
    | refused x => cases vs <;> simp [trialValues]
    | outOfFuel => cases vs <;> simp [trialValues]

/-- Settles O55: each trial of an assignment is a value of the list whose maximum the network answers. -/
theorem maxSignalIsTheMaximum : Obligations.MaxSignalIsTheMaximum := by
  intro policy fuel rounds program phases v hmax
  unfold maxSignal at hmax
  split at hmax
  · cases hmax
  · next vs hvalues =>
    have trials := trialValues_eq_some.mp hvalues
    obtain ⟨attained, bound⟩ := List.max?_eq_some_iff.mp hmax
    refine ⟨?_, fun p hp => ?_⟩
    · have listed : TrialResult.value v ∈ vs.map .value := List.mem_map_of_mem attained
      rw [← trials] at listed
      obtain ⟨p, hp, htrial⟩ := List.mem_map.mp listed
      exact ⟨p, (phaseAssignmentsAreThePermutations phases p).mp hp, htrial⟩
    · have listed := List.mem_map_of_mem (f := trial policy fuel rounds program)
        ((phaseAssignmentsAreThePermutations phases p).mpr hp)
      rw [trials] at listed
      obtain ⟨w, hw, htrial⟩ := List.mem_map.mp listed
      exact ⟨w, htrial.symm, bound w hw⟩

end Sys2Proof.Machine
end
